-- ==== Sys2Proof/Word.lean ====
section
/-! DEFINITION. The plain value types of PSD (00_scope.md R14): bit strings, the word form of a codeword, and texts. -/

namespace Sys2Proof

/-- A bit string: a finite ordered sequence of bits, the first element having index 0 and, in time, received
first (R14, R40). `true` is the bit 1. -/
abbrev Bits := List Bool

/-- A codeword carried as the word `raw[31:0]` (R42). -/
abbrev Word32 := BitVec 32

/-- The code of one character, 0 to 127 (R165). -/
abbrev Septet := BitVec 7

/-- A text as its sequence of character codes (R165). -/
abbrev Text := List Septet

end Sys2Proof
end

