-- ==== Sys2Proof/Config.lean ====
section
/-! DEFINITION. What an instance of PSD is configured with (00_scope.md R9, R10, R12; 10_state.md R22, R31), and the one value
the spec leaves free. -/

namespace Sys2Proof

/-- The configuration of an instance: constant for its life, not touched by RESET (R22, R31). -/
structure Cfg where
  /-- `symbolLength`: expected samples per symbol (R9). -/
  L : Nat
  /-- `tolerance` is the exact rational `tolNum / tolDen` (R10). -/
  tolNum : Nat
  tolDen : Nat
  /-- `lockLength`: consecutive valid runs needed to lock (R9). -/
  K : Nat
  /-- `inverted`: flip the polarity of each sample first (R9, R101). -/
  inv : Bool
  /-- `KEEP_PREAMBLE`: the bits gathered while Unlocked stay in the buffer when lock is acquired (R12, R109). -/
  keepPreamble : Bool
  /-- `BUF_CAPACITY`: the greatest number of bits the buffer holds; `none` is unbounded (R12, R116). -/
  bufCapacity : Option Nat
  /-- `CNT_W`: the width of a finite realisation of `sampCount`; no rule reads it (R12, notes/assumptions/19.md). -/
  cntW : Option Nat
deriving DecidableEq, Repr

/-- What the instance emits in a call that both overflows the buffer and loses lock. FREE VALUE: the spec says nothing
about that emission (R194 c, 93 U5), so nothing here constrains it: it may be no emission or any bit string, a new one at
each use of the counter. Safe. See notes/assumptions/8.md. -/
opaque Config.overflowEmission : Nat → Option Bits

end Sys2Proof
end

