-- ==== Sys2Proof/Syntax.lean ====
section
/-! DEFINITION. The operations of PSD as syntax: one constructor of `Instr` for each row of spec/opcode_table.json, and
the form in which the environment offers an operation. -/

namespace Sys2Proof

/-- The value of a classified codeword (R82). -/
inductive Codeword where
  /-- The idle filler; it carries no fields (R71). -/
  | idle
  /-- R69: 18-bit address, 2-bit function code, 10-bit check value, 1-bit parity. -/
  | address (address : BitVec 18) (function : BitVec 2) (check : BitVec 10) (parity : BitVec 1)
  /-- R70: 20-bit payload, 10-bit check value, 1-bit parity. -/
  | message (payload : BitVec 20) (check : BitVec 10) (parity : BitVec 1)
deriving DecidableEq, Repr

/-- The operations (R16, R84). An arm of ADDSAMPLE (`uSame` to `lEdgeLose`) takes the raw sample: the row's format is
SAMPLE, and the operation is the call ADDSAMPLE(raw) in which the dispatch of R102 runs that arm. -/
inductive Instr where
  /-- A 32-bit window that is the sync word (R62, R132). -/
  | sync
  /-- A 32-bit codeword that is the idle pattern (R138). -/
  | idle
  /-- An Address codeword (R139). -/
  | address (address : BitVec 18) (function : BitVec 2) (check : BitVec 10) (parity : BitVec 1)
  /-- A Message codeword (R140). -/
  | message (payload : BitVec 20) (check : BitVec 10) (parity : BitVec 1)
  /-- R100. -/
  | reset
  /-- R102. -/
  | addSample (raw : Bool)
  /-- R105. -/
  | uSame (raw : Bool)
  /-- R107. -/
  | uEdgeOk (raw : Bool)
  /-- R108. -/
  | uEdgeBad (raw : Bool)
  /-- R109. -/
  | uLock (raw : Bool)
  /-- R111. -/
  | lMid (raw : Bool)
  /-- R112. -/
  | lSame (raw : Bool)
  /-- R113. -/
  | lEdgeKeep (raw : Bool)
  /-- R114. -/
  | lEdgeLose (raw : Bool)
  /-- R115. -/
  | endStream
  /-- R130: the emitted bit string. -/
  | decode (B : Bits)
  /-- R132: a bit string and the index of the window. -/
  | syncMatch (B : Bits) (i : Nat)
  /-- R133: a bit string and the index of an occurrence of the sync word. -/
  | batch (B : Bits) (i : Nat)
  /-- R135: a 512-bit batch. -/
  | slice (batch : Bits)
  /-- R137: one 32-bit codeword. -/
  | classify (cw : Word32)
  /-- R160: the result of one DECODE. -/
  | assemble (cws : List Codeword)
  /-- R164: the message bits. -/
  | septet (mb : Bits)
  /-- R166: the address, if set, and the message text. -/
  | format (address : Option (BitVec 18)) (text : Text)
deriving DecidableEq, Repr

/-- What selects an operation that the environment calls, other than RESET and ENDSTREAM, which have lines of their
own (R84, R192). A codeword and a sync window have the same 32 bits and differ in where they are read (R76), so
there are two selectors for a 32-bit word: `window`, read by the sync-word matcher, and `codeword`, read at a codeword
position. DESIGN CHOICE, safe: the spec selects an operation by an event and by the state and gives no selector
a number; see notes/assumptions/3.md. -/
inductive Selector where
  | window
  | codeword
  | sample
  | uSame
  | uEdgeOk
  | uEdgeBad
  | uLock
  | lMid
  | lSame
  | lEdgeKeep
  | lEdgeLose
  | decode
  | syncMatch
  | batch
  | slice
  | classify
  | assemble
  | septet
  | format
deriving DecidableEq, Repr

/-- One operation as it is offered: its selector, the index operand (0 where the operation has none) and the bits of its
operand in the order received (R14, R40). -/
structure Slot where
  sel : Selector
  index : Nat
  bits : Bits
deriving DecidableEq, Repr

/-- What the environment offers at one time: the lines `rst` and `s_end`, at most one operation, and a request of the
codeword consumer to stall one delivery (`cw_ready` low) (R192, R193, R194). -/
structure Offer where
  rst : Bool
  op : Option Slot
  fin : Bool
  stall : Bool
deriving DecidableEq, Repr

end Sys2Proof
end

