-- ==== Sys2Proof/Machine/Operands.lean ====
section
/-! DEFINITION. Every operand form of PSD: bit strings read as numbers and words, the read primitive of a bit string, the two
literal patterns, the three codeword layouts with their fields, both ways, and the record CWREC. No state is read here. -/

namespace Sys2Proof.Machine

/-- The big-endian unsigned value of a bit string: `be [] = 0`, `be (B ++ [b]) = 2 * be B + b` (R14, R41). -/
def be (B : Bits) : Nat := B.foldl (fun v b => 2 * v + b.toNat) 0

/-- `bits_n(v)`: the `n`-bit big-endian string of the value `v` (R80). -/
def bitsOf : Nat → Nat → Bits
  | 0, _ => []
  | n + 1, v => v.testBit n :: bitsOf n v

/-- A 32-bit string as a word: `raw = be(cw)`, so that `raw[31 - i] = cw[i]` (R42). -/
def wordOf (cw : Bits) : Word32 := BitVec.ofNat 32 (be cw)

/-- The word read back as the bit string it carries, first-received bit first (R42). -/
def bitsOfWord (w : Word32) : Bits := bitsOf 32 w.toNat

/-- A substring of `n` bits from index `off` (R14); shorter where the string ends first. -/
def substr (B : Bits) (off n : Nat) : Bits := (B.drop off).take n

/-- `BufRead(B, off, n)`: the `n` bits from `off`, defined only when they all exist (R15, R44, R45). -/
def bufRead (B : Bits) (off n : Nat) : Option Bits :=
  if (substr B off n).length = n then some (substr B off n) else none

/-- The sync word as GRX writes it, first bit leftmost (R62). -/
def syncBits : Bits :=
  [0,1,1,1,1,1,0,0,1,1,0,1,0,0,1,0,0,0,0,1,0,1,0,1,1,1,0,1,1,0,0,0].map (fun d => d == 1)

/-- The idle pattern as GRX writes it, first bit leftmost (R63). -/
def idleBits : Bits :=
  [0,1,1,1,1,0,1,0,1,0,0,0,1,0,0,1,1,1,0,0,0,0,0,1,1,0,0,1,0,1,1,1].map (fun d => d == 1)

/-- The sync word as a word, `0x7CD215D8` (R42, R62). -/
def syncWord : Word32 := wordOf syncBits

/-- The idle pattern as a word, `0x7A89C197` (R42, R63). -/
def idleWord : Word32 := wordOf idleBits

/-- ADDRESS: the fields of an Address codeword, by their word bits (R69, R72, R139). -/
def addressFields (w : Word32) : Codeword :=
  .address (w.extractLsb' 13 18) (w.extractLsb' 11 2) (w.extractLsb' 1 10) (w.extractLsb' 0 1)

/-- MESSAGE: the fields of a Message codeword, by their word bits (R70, R72, R140). -/
def messageFields (w : Word32) : Codeword :=
  .message (w.extractLsb' 11 20) (w.extractLsb' 1 10) (w.extractLsb' 0 1)

/-- CLASSIFY: idle first, then by the first bit (R73, R137). It is total (R74) and looks at no check value and no
parity (R75, R141). -/
def classify (w : Word32) : Codeword :=
  if w = idleWord then .idle
  else if w.getLsbD 31 = false then addressFields w
  else messageFields w

/-- `enc`: the codeword that carries a value (R80). -/
def enc : Codeword → Word32
  | .idle => idleWord
  | .address a f c q => (0#1 ++ a ++ f ++ c ++ q : BitVec (1 + 18 + 2 + 10 + 1))
  | .message m c q => (1#1 ++ m ++ c ++ q : BitVec (1 + 20 + 10 + 1))

/-- A value that CLASSIFY can produce: every one but the Address whose encoding is the idle pattern (R80). -/
def properCodeword (c : Codeword) : Bool := classify (enc c) == c

/-- The kind of a codeword value as CWREC carries it: 0 Idle, 1 Address, 2 Message; 3 is never produced (R79). -/
def kindOf : Codeword → BitVec 2
  | .idle => 0
  | .address .. => 1
  | .message .. => 2

/-- CWREC: `kind` in `rec[33:32]`, the raw codeword in `rec[31:0]` (R79). -/
def cwRec (c : Codeword) : BitVec 34 := (kindOf c ++ enc c : BitVec (2 + 32))

/-- CWREC as a bit string, most significant bit first. -/
def cwRecBits (c : Codeword) : Bits := bitsOf 2 (kindOf c).toNat ++ bitsOfWord (enc c)

/-- A text as bits, seven for each character, most significant first (the model's carrier for FORMAT's operand;
notes/assumptions/3.md). -/
def textBits (t : Text) : Bits := t.flatMap (fun v => bitsOf 7 v.toNat)

/-- The text carried by a bit string, `n` characters of it from the start. -/
def textOf : Nat → Bits → Text
  | 0, _ => []
  | n + 1, B => BitVec.ofNat 7 (be (B.take 7)) :: textOf n (B.drop 7)

end Sys2Proof.Machine
end

