-- ==== Sys2Proof/WellFormed.lean ====
section
/-! DEFINITION. When an operation is well-formed: its operands are such as the rule that defines it takes. -/

namespace Sys2Proof

open Sys2Proof.Machine in
/-- The operands are in the domain of the operation's rule. The Address whose encoding is the idle pattern is no
operand of ADDRESS, whose codeword differs from IDLE (R139, R80), nor an element of a codeword sequence, which is a
result of CLASSIFY (R160); the window of SYNCMATCH lies in the bit string (R44); the index of BATCH is an
occurrence (R133); a batch has 512 bits (R66, R135). Every other operand of its type is admitted. -/
def Instr.wf : Instr → Bool
  | .sync => true
  | .idle => true
  | .address a f c q => properCodeword (.address a f c q)
  | .message _ _ _ => true
  | .reset => true
  | .addSample _ => true
  | .uSame _ => true
  | .uEdgeOk _ => true
  | .uEdgeBad _ => true
  | .uLock _ => true
  | .lMid _ => true
  | .lSame _ => true
  | .lEdgeKeep _ => true
  | .lEdgeLose _ => true
  | .endStream => true
  | .decode _ => true
  | .syncMatch B i => decide (i + 32 ≤ B.length)
  | .batch B i => bufRead B i 32 == some syncBits
  | .slice b => b.length == 512
  | .classify _ => true
  | .assemble cws => cws.all properCodeword
  | .septet _ => true
  | .format _ _ => true

end Sys2Proof
end

