-- ==== Sys2Proof/Decode.lean ====
section
/-! DEFINITION. The decoder: total on anything the environment can offer, rejecting by name; the encoder beside it; and the
pattern table's view of a 32-bit word. The two pattern channels follow 30_encoding.md; the other selectors are the model's
(notes/assumptions/3.md). -/

namespace Sys2Proof

open Sys2Proof.Machine

/-- Why an offer decodes to no operation. Every one is safe: the machine stops. -/
inductive DecodeError where
  /-- Nothing is offered. -/
  | nothingOffered
  /-- The operand does not have the width of the operation's format (R60). -/
  | badWidth
  /-- An index operand with an operation that has none. -/
  | strayIndex
  /-- A 32-bit window that is not the sync word matches no pattern (R132). -/
  | noSyncWord
  /-- The window of SYNCMATCH does not lie in the bit string (R44). -/
  | windowOutside
  /-- The index of BATCH is no occurrence of the sync word (R133). -/
  | noOccurrence
  /-- A codeword record of kind 3, which is never produced (R79, 93 U11). -/
  | recordKind3
  /-- A codeword record whose kind is not that of its raw codeword (R79). -/
  | recordKindWrong
deriving DecidableEq, Repr

/-- A codeword at a codeword position: the first of IDLE, ADDRESS, MESSAGE that matches (R73). -/
def instrOfCodeword : Codeword → Instr
  | .idle => .idle
  | .address a f c q => .address a f c q
  | .message m c q => .message m c q

/-- One CWREC record of 34 bits (R79). -/
def decodeRecord (rec : Bits) : Except DecodeError Codeword :=
  let c := classify (wordOf (substr rec 2 32))
  if be (substr rec 0 2) = 3 then .error .recordKind3
  else if be (substr rec 0 2) = (kindOf c).toNat then .ok c
  else .error .recordKindWrong

/-- `n` CWREC records in order. -/
def decodeRecords : Nat → Bits → Except DecodeError (List Codeword)
  | 0, _ => .ok []
  | n + 1, B =>
    match decodeRecord (B.take 34) with
    | .error e => .error e
    | .ok c =>
      match decodeRecords n (B.drop 34) with
      | .error e => .error e
      | .ok cs => .ok (c :: cs)

/-- FORMAT's operand: a bit that says whether an address is set, the 18 bits of the address if it is, then the text. -/
def decodeFormat : Bits → Except DecodeError Instr
  | [] => .error .badWidth
  | false :: t => if t.length % 7 = 0 then .ok (.format none (textOf (t.length / 7) t)) else .error .badWidth
  | true :: t =>
    if 18 ≤ t.length ∧ (t.length - 18) % 7 = 0 then
      .ok (.format (some (BitVec.ofNat 18 (be (t.take 18)))) (textOf ((t.length - 18) / 7) (t.drop 18)))
    else .error .badWidth

/-- A one-bit operand: the raw sample (R61). -/
def decodeSample (f : Bool → Instr) : Bits → Except DecodeError Instr
  | [b] => .ok (f b)
  | _ => .error .badWidth

/-- A 32-bit operand. -/
def decodeWord (f : Word32 → Except DecodeError Instr) (B : Bits) : Except DecodeError Instr :=
  if B.length = 32 then f (wordOf B) else .error .badWidth

/-- The operation a slot offers when its index operand is in order. -/
def decodeBits (sel : Selector) (i : Nat) (B : Bits) : Except DecodeError Instr :=
  match sel with
  | .window => decodeWord (fun w => if w = syncWord then .ok .sync else .error .noSyncWord) B
  | .codeword => decodeWord (fun w => .ok (instrOfCodeword (classify w))) B
  | .sample => decodeSample .addSample B
  | .uSame => decodeSample .uSame B
  | .uEdgeOk => decodeSample .uEdgeOk B
  | .uEdgeBad => decodeSample .uEdgeBad B
  | .uLock => decodeSample .uLock B
  | .lMid => decodeSample .lMid B
  | .lSame => decodeSample .lSame B
  | .lEdgeKeep => decodeSample .lEdgeKeep B
  | .lEdgeLose => decodeSample .lEdgeLose B
  | .decode => .ok (.decode B)
  | .syncMatch => if i + 32 ≤ B.length then .ok (.syncMatch B i) else .error .windowOutside
  | .batch => if bufRead B i 32 = some syncBits then .ok (.batch B i) else .error .noOccurrence
  | .slice => if B.length = 512 then .ok (.slice B) else .error .badWidth
  | .classify => decodeWord (fun w => .ok (.classify w)) B
  | .assemble =>
    if B.length % 34 = 0 then
      match decodeRecords (B.length / 34) B with
      | .error e => .error e
      | .ok cws => .ok (.assemble cws)
    else .error .badWidth
  | .septet => .ok (.septet B)
  | .format => decodeFormat B

/-- The selectors whose operation has an index operand. -/
def takesIndex : Selector → Bool
  | .syncMatch => true
  | .batch => true
  | _ => false

/-- The operation of one slot. -/
def decodeSlot (sl : Slot) : Except DecodeError Instr :=
  if takesIndex sl.sel = false ∧ sl.index ≠ 0 then .error .strayIndex
  else decodeBits sl.sel sl.index sl.bits

/-- The operation that runs next of those offered together: RESET before a sample, a sample before ENDSTREAM (R100, R194 e
and f). DESIGN CHOICE, unsafe: the spec does not order RESET against ENDSTREAM, nor an operation other than a sample against
either; here RESET is first, ENDSTREAM last (notes/assumptions/22.md). -/
def decode (o : Offer) : Except DecodeError Instr :=
  if o.rst then .ok .reset
  else
    match o.op with
    | some sl => decodeSlot sl
    | none => if o.fin then .ok .endStream else .error .nothingOffered

/-! The encoder. -/

/-- An offer of one operation and nothing else. -/
def offerOf (sel : Selector) (i : Nat) (B : Bits) : Offer :=
  { rst := false, op := some { sel := sel, index := i, bits := B }, fin := false, stall := false }

/-- The offer of one raw sample: `s_valid` with `s_data` (R61, R192). -/
def sampleOffer (raw : Bool) : Offer := offerOf .sample 0 [raw]

/-- The offer of RESET alone (R100). -/
def resetOffer : Offer := { rst := true, op := none, fin := false, stall := false }

/-- The offer of ENDSTREAM alone (R115). -/
def finOffer : Offer := { rst := false, op := none, fin := true, stall := false }

/-- FORMAT's operand as bits. -/
def formatBits (address : Option (BitVec 18)) (text : Text) : Bits :=
  match address with
  | none => false :: textBits text
  | some a => true :: (bitsOf 18 a.toNat ++ textBits text)

/-- The offer by which a well-formed operation is called. -/
def encode : Instr → Offer
  | .sync => offerOf .window 0 syncBits
  | .idle => offerOf .codeword 0 idleBits
  | .address a f c q => offerOf .codeword 0 (bitsOfWord (enc (.address a f c q)))
  | .message m c q => offerOf .codeword 0 (bitsOfWord (enc (.message m c q)))
  | .reset => resetOffer
  | .addSample raw => offerOf .sample 0 [raw]
  | .uSame raw => offerOf .uSame 0 [raw]
  | .uEdgeOk raw => offerOf .uEdgeOk 0 [raw]
  | .uEdgeBad raw => offerOf .uEdgeBad 0 [raw]
  | .uLock raw => offerOf .uLock 0 [raw]
  | .lMid raw => offerOf .lMid 0 [raw]
  | .lSame raw => offerOf .lSame 0 [raw]
  | .lEdgeKeep raw => offerOf .lEdgeKeep 0 [raw]
  | .lEdgeLose raw => offerOf .lEdgeLose 0 [raw]
  | .endStream => finOffer
  | .decode B => offerOf .decode 0 B
  | .syncMatch B i => offerOf .syncMatch i B
  | .batch B i => offerOf .batch i B
  | .slice b => offerOf .slice 0 b
  | .classify cw => offerOf .classify 0 (bitsOfWord cw)
  | .assemble cws => offerOf .assemble 0 (cws.flatMap cwRecBits)
  | .septet mb => offerOf .septet 0 mb
  | .format a t => offerOf .format 0 (formatBits a t)

/-! The table's view of a word. -/

/-- An opcode-table word of `nbits` bits as the offer it stands for. A 32-bit word is tried against the pattern rows in
file order (R84): SYNC in the matcher's window, else a codeword. Up to 8 bits that hold one bit are a sample (R61).
Anything else has no bits in the table and is offered as a codeword of the wrong width, which decodes to
nothing (notes/assumptions/3.md). -/
def tableOffer (nbits w : Nat) : Offer :=
  if nbits = 32 then
    if w = syncWord.toNat then offerOf .window 0 (bitsOf 32 w) else offerOf .codeword 0 (bitsOf 32 w)
  else if 0 < nbits ∧ nbits ≤ 8 ∧ w < 2 then offerOf .sample 0 (bitsOf 1 w)
  else offerOf .codeword 0 []

/-- The instruction the decoder reads from an opcode-table word. -/
def decodeTableWord (nbits w : Nat) : Option Instr :=
  match decode (tableOffer nbits w) with
  | .ok i => some i
  | .error _ => none

end Sys2Proof
end

