-- ==== Sys2Proof/Machine/State.lean ====
section
/-! DEFINITION. The state of one PSD instance, with the downstream work in progress and what the environment has yet to offer;
the reasons a step can stop; the state after reset. -/

namespace Sys2Proof.Machine

/-- The two-valued control state of SYMSYNC (R21, R28). -/
inductive LockState where
  | unlocked
  | locked
deriving DecidableEq, Repr

/-- The architectural record `st` of SYMSYNC (R20, R21). -/
structure SymSync where
  /-- Whether the symbol phase is considered found. -/
  state : LockState
  /-- The polarity-corrected level of the previous sample. -/
  last : Bool
  /-- Non-edge samples since the last edge, reset or lock event. -/
  sampCount : Nat
  /-- Consecutive completed runs that were within tolerance. -/
  preambCount : Nat
  /-- Unlocked: the levels of those runs. Locked: the bits sampled in this lock session. -/
  buffer : Bits
  /-- The buffer's capacity was exceeded; sticky. -/
  ovf : Bool
deriving DecidableEq, Repr

/-- The conditions an operation can raise and go on (R180). REFUSE_CONFIG, code 7, is no condition of an operation: it is
the refusal `refuseConfig`. -/
inductive Cond where
  | evDesync
  | evLock
  | evLockLoss
  | evShortBatch
  | evEndStream
  | faultOverflow
deriving DecidableEq, Repr

/-- What the last operation gave back (the result types of R102, R132, R133, R135, R137, R130, R160), or what the last
delivery step showed on the codeword port (R192). -/
inductive Output where
  /-- Nothing. -/
  | none
  /-- ADDSAMPLE's `Option<DecodedBits>`. -/
  | emission (B : Option Bits)
  /-- SYNCMATCH. -/
  | matched (m : Bool)
  /-- BATCH: the 512 bits, or `none` where the occurrence is skipped. -/
  | batch (b : Option Bits)
  /-- SLICE: sixteen codewords. -/
  | slices (cws : List Word32)
  /-- CLASSIFY, or a codeword read at a codeword position. -/
  | codeword (c : Codeword)
  /-- DECODE. -/
  | codewords (cws : List Codeword)
  /-- SEPTET. -/
  | text (t : Text)
  /-- FORMAT and ASSEMBLE: a Result line (R83). -/
  | line (t : Text)
  /-- One codeword delivered to the consumer: a beat with `cw_valid` and `cw_ready` (R192). -/
  | delivered (c : Codeword)
  /-- The pulse of `cw_done` after the last codeword of one DECODE (R192). -/
  | deliveryDone
deriving DecidableEq, Repr

/-- The downstream work on the last emission that is still to be done before another sample is taken (R50, R228). -/
inductive Stage where
  /-- None: the block can take an operation. -/
  | idle
  /-- The emitted bit string awaits DECODE. -/
  | decode (B : Bits)
  /-- The codewords still to be delivered, of the whole sequence `all`. -/
  | deliver (todo all : List Codeword)
  /-- The delivered sequence awaits ASSEMBLE. -/
  | assemble (cws : List Codeword)
deriving DecidableEq, Repr

/-- The state of one instance. `st` and `cfg` are the spec's; `ended` and `stage` are implied by it; `result` and `raised`
are the outputs of the last operation; `source` and `freeCount` are the model's own. -/
structure State where
  /-- The configuration (R9, R12). -/
  cfg : Cfg
  /-- The architectural record (R21). -/
  st : SymSync
  /-- ENDSTREAM was taken and no RESET since (R115). -/
  ended : Bool
  /-- The downstream work in progress (R50, R228). -/
  stage : Stage
  /-- The value of the last operation. -/
  result : Output
  /-- The conditions the last operation raised, in order (R180). -/
  raised : List Cond
  /-- What the environment offers, oldest first (R190, R193). -/
  source : List Offer
  /-- How many free values have been used. -/
  freeCount : Nat
deriving DecidableEq, Repr

/-- A fault: the machine stops. -/
inductive Fault where
  /-- Raised by a sample operation while `st.ovf = 1`: after an overflow the spec gives the instance's outputs no meaning until
  RESET, and a model treats the state as faulted (R116, R186, 93 U5). Safe. -/
  | bufferOverflow
deriving DecidableEq, Repr

/-- A refusal: the operation is not taken and the machine stops. -/
inductive Refusal where
  /-- Raised by an arm of `exec` that has no meaning yet. Safe. -/
  | notModelled (mnemonic : String)
  /-- Raised by a step, and by every SYMSYNC operation, under a configuration that is not admitted (R11, R188). Safe. -/
  | refuseConfig
  /-- Raised by a sample operation after ENDSTREAM and before RESET: the sample is not accepted (R115, 93 U9). Safe. -/
  | streamEnded
  /-- Raised by an arm of ADDSAMPLE in a state in which the dispatch runs another arm (R102). Safe. -/
  | armNotSelected
  /-- Raised by SYNCMATCH when its window does not lie in the bit string: the read is not defined (R15, R44). Safe. -/
  | windowOutside
  /-- Raised by SLICE on a string that is not 512 bits, hence no batch (R66, R135). Safe. -/
  | badBatchLength
  /-- Raised by a step when what is offered decodes to no operation. Safe. -/
  | undecodable (e : DecodeError)
deriving DecidableEq, Repr

/-- SYMSYNC right after RESET (R37, R100, R210). -/
def resetSync : SymSync :=
  { state := .unlocked, last := false, sampCount := 0, preambCount := 0, buffer := [], ovf := false }

/-- The configuration of the machine of `State.reset`. `K = 100`, `keepPreamble = false` and the unbounded capacity are the
spec's defaults (R9, R12). `L = 4`, `tol = 1/4` and `inv = 0` are DESIGN CHOICES, unsafe: the spec gives no default; see
notes/assumptions/1.md. -/
def resetCfg : Cfg :=
  { L := 4, tolNum := 1, tolDen := 4, K := 100, inv := false, keepPreamble := false, bufCapacity := none, cntW := none }

/-- The machine right after reset (R37, R210), with nothing offered. -/
def State.reset : State :=
  { cfg := resetCfg, st := resetSync, ended := false, stage := .idle, result := .none, raised := [], source := [],
    freeCount := 0 }

end Sys2Proof.Machine
end

