-- ==== Sys2Proof/Machine/Flags.lean ====
section
/-! DEFINITION. Every test the SYMSYNC rules make: the admitted configurations, the thresholds, the edge detector, the
tolerance tests, the midpoint test, and the selecting conditions of the arms; the codes of the conditions. -/

namespace Sys2Proof.Machine

/-- `LO = ceil(L * (TOL_DEN - TOL_NUM) / TOL_DEN)` (R10). -/
def lo (cfg : Cfg) : Nat := (cfg.L * (cfg.tolDen - cfg.tolNum) + (cfg.tolDen - 1)) / cfg.tolDen

/-- `HI = floor(L * (TOL_DEN + TOL_NUM) / TOL_DEN)` (R10). -/
def hi (cfg : Cfg) : Nat := cfg.L * (cfg.tolDen + cfg.tolNum) / cfg.tolDen

/-- `h = L div 2`. -/
def half (cfg : Cfg) : Nat := cfg.L / 2

/-- The admitted configurations (R11), with a finite capacity of at least `K` (R116, R188). -/
def admitted (cfg : Cfg) : Bool :=
  decide (1 ≤ cfg.L) && decide (cfg.tolNum < cfg.tolDen) && decide (1 ≤ cfg.K) &&
    (match cfg.bufCapacity with
     | none => true
     | some n => decide (cfg.K ≤ n))

/-- Polarity correction: `s = raw xor inv` (R101). -/
def corrected (cfg : Cfg) (raw : Bool) : Bool := raw ^^ cfg.inv

/-- The edge detector: the corrected sample differs from the stored level (R104). -/
def edge (st : SymSync) (s : Bool) : Bool := s != st.last

/-- The run just ended is within tolerance: `LO <= c <= HI` (R107). -/
def inTolerance (cfg : Cfg) (c : Nat) : Bool := decide (lo cfg ≤ c) && decide (c ≤ hi cfg)

/-- The run just ended is too short to keep lock: `c < LO` (R114). -/
def tooShort (cfg : Cfg) (c : Nat) : Bool := decide (c < lo cfg)

/-- The symbol midpoint: `c mod L = L div 2` (R111). -/
def midpoint (cfg : Cfg) (c : Nat) : Bool := c % cfg.L == half cfg

/-- The buffer holds `BUF_CAPACITY` bits already (R54, R116). -/
def bufFull (cfg : Cfg) (st : SymSync) : Bool :=
  match cfg.bufCapacity with
  | none => false
  | some n => decide (n ≤ st.buffer.length)

/-- U_SAME's selecting condition (R102). -/
def selUSame (st : SymSync) (s : Bool) : Bool := st.state == .unlocked && !edge st s

/-- U_EDGE_OK's selecting condition (R102). -/
def selUEdgeOk (cfg : Cfg) (st : SymSync) (s : Bool) : Bool :=
  st.state == .unlocked && edge st s && inTolerance cfg st.sampCount

/-- U_EDGE_BAD's selecting condition (R102). -/
def selUEdgeBad (cfg : Cfg) (st : SymSync) (s : Bool) : Bool :=
  st.state == .unlocked && edge st s && !inTolerance cfg st.sampCount

/-- U_LOCK's selecting condition: it follows U_EDGE_OK when `preambCount` becomes `K` (R102, R109). -/
def selULock (cfg : Cfg) (st : SymSync) (s : Bool) : Bool :=
  selUEdgeOk cfg st s && st.preambCount + 1 == cfg.K

/-- L_MID's selecting condition (R102). -/
def selLMid (cfg : Cfg) (st : SymSync) : Bool := st.state == .locked && midpoint cfg st.sampCount

/-- L_SAME's selecting condition (R102). -/
def selLSame (st : SymSync) (s : Bool) : Bool := st.state == .locked && !edge st s

/-- L_EDGE_KEEP's selecting condition (R102). -/
def selLEdgeKeep (cfg : Cfg) (st : SymSync) (s : Bool) : Bool :=
  st.state == .locked && edge st s && !tooShort cfg st.sampCount

/-- L_EDGE_LOSE's selecting condition (R102). -/
def selLEdgeLose (cfg : Cfg) (st : SymSync) (s : Bool) : Bool :=
  st.state == .locked && edge st s && tooShort cfg st.sampCount

/-- The number of a condition (R180); no rule depends on it. -/
def condCode : Cond → Nat
  | .evDesync => 1
  | .evLock => 2
  | .evLockLoss => 3
  | .evShortBatch => 4
  | .evEndStream => 5
  | .faultOverflow => 6

end Sys2Proof.Machine
end

