-- ==== Sys2Proof/Machine/Ops.lean ====
section
/-! DEFINITION. The named operations on the bit buffer and on the SYMSYNC record, lock acquisition and lock loss (what this
hardware has in place of trap return and trap entry, R195, R196), and how an operation's outcome is put back into State. -/

namespace Sys2Proof.Machine

/-- `BufAppend(b)`: at the end while there is room; on a full buffer the bit is not appended and `ovf` is set (R54, R116). -/
def bufAppend (cfg : Cfg) (b : Bool) (st : SymSync) : SymSync :=
  if bufFull cfg st then { st with ovf := true } else { st with buffer := st.buffer ++ [b] }

/-- `BufClear()` (R54). -/
def bufClear (st : SymSync) : SymSync := { st with buffer := [] }

/-- The run counter restarts (R106, R113). -/
def restartRun (st : SymSync) : SymSync := { st with sampCount := 0 }

/-- One more non-edge sample (R105, R112). -/
def countSample (st : SymSync) : SymSync := { st with sampCount := st.sampCount + 1 }

/-- The last action of every ADDSAMPLE: `st.last <- s` (R103). -/
def setLast (s : Bool) (st : SymSync) : SymSync := { st with last := s }

/-- Lock acquisition (R109, R182): the nearest thing to a trap return (R196). -/
def acquireLock (cfg : Cfg) (st : SymSync) : SymSync :=
  { st with
    state := .locked, sampCount := 0, preambCount := 0,
    buffer := if cfg.keepPreamble then st.buffer else [] }

/-- Lock loss (R114, R183): the nearest thing to a trap entry (R195). It saves nothing; what it hands out is the buffer
it clears. -/
def loseLock (st : SymSync) : SymSync :=
  { st with state := .unlocked, buffer := [], sampCount := 0, preambCount := 0 }

/-- What one ADDSAMPLE call gives: the record after it, its result, the conditions it raised, and how many free values it
used. -/
structure Reply where
  st : SymSync
  out : Option Bits
  raised : List Cond
  used : Nat
deriving DecidableEq, Repr

/-- FAULT_OVERFLOW, when the call has set `ovf` (R186). -/
def overflowRaised (st : SymSync) : List Cond := if st.ovf then [.faultOverflow] else []

/-- Takes the reply of a sample operation into the state, when the instance takes samples: its configuration is
admitted (R188), the stream has not ended (R115), it has not overflowed (R186), and the operation is the one the
dispatch runs (`none` where it is not, R102). -/
def takeReply (s : State) (r : Option Reply) : Host.Outcome State Fault Refusal :=
  if admitted s.cfg = false then .refused .refuseConfig
  else if s.ended then .refused .streamEnded
  else if s.st.ovf then .fault .bufferOverflow
  else
    match r with
    | none => .refused .armNotSelected
    | some r =>
      .next { s with
        st := r.st, result := .emission r.out, raised := r.raised, freeCount := s.freeCount + r.used }

/-- Takes the value of an operation that has no state (R23, R24). -/
def giveResult (s : State) (r : Output) (raised : List Cond) : Host.Outcome State Fault Refusal :=
  .next { s with result := r, raised := raised }

end Sys2Proof.Machine
end

