-- ==== Sys2Proof/Machine/FrameDec.lean ====
section
/-! DEFINITION. FRAMEDEC (41_frame_decoder.md): the sync-word matcher, the batch slicer, the codeword slicer, the classifier
and the scan that puts them together. All are functions of their operands (R23). -/

namespace Sys2Proof.Machine

/-- SYNCMATCH: the 32 bits at `i` exist and are the sync word, all of them, in order (R132). -/
def syncMatch (B : Bits) (i : Nat) : Bool := bufRead B i 32 == some syncBits

/-- BATCH: the 512 bits after the occurrence at `i`, or nothing where fewer remain (R133). -/
def batchAt (B : Bits) (i : Nat) : Option Bits := bufRead B (i + 32) 512

/-- SLICE: eight frames in order, each giving its first half and then its second half (R135). -/
def sliceBatch (batch : Bits) : List Word32 :=
  (List.range 8).flatMap fun f => [wordOf (substr batch (64 * f) 32), wordOf (substr batch (64 * f + 32) 32)]

/-- The codewords of an occurrence's batch, when the batch is there (R133, R135, R137). -/
def parseBatch : Option Bits → List Codeword
  | none => []
  | some b => (sliceBatch b).map classify

/-- What the scan gives at one index: the codewords of the occurrence there, if there is one (R131 to R137). -/
def codewordsAt (B : Bits) (i : Nat) : List Codeword :=
  if syncMatch B i then parseBatch (batchAt B i) else []

/-- What the scan raises at one index: EV_SHORTBATCH where an occurrence is skipped (R184). -/
def conditionsAt (B : Bits) (i : Nat) : List Cond :=
  if syncMatch B i && (batchAt B i).isNone then [.evShortBatch] else []

/-- DECODE: every index in ascending order, step 1, whether or not it matched (R131, R136). Written over the suffixes of
the bit string: the suffix that begins at index `i` is scanned at its own index 0. -/
def decodeStream : Bits → List Codeword
  | [] => []
  | b :: t => codewordsAt (b :: t) 0 ++ decodeStream t

/-- The conditions of one DECODE, in scan order (R184). -/
def decodeConditions : Bits → List Cond
  | [] => []
  | b :: t => conditionsAt (b :: t) 0 ++ decodeConditions t

/-! The operations. -/

/-- SYNC (R132): the 32-bit window is the sync word, an occurrence. -/
def execSync (s : State) : Host.Outcome State Fault Refusal := giveResult s (.matched true) []

/-- IDLE (R138): the value Idle, no field extracted. -/
def execIdle (s : State) : Host.Outcome State Fault Refusal := giveResult s (.codeword .idle) []

/-- ADDRESS (R139): the value with its four fields, none of them tested (R75). -/
def execAddress (a : BitVec 18) (f : BitVec 2) (c : BitVec 10) (q : BitVec 1) (s : State) :
    Host.Outcome State Fault Refusal :=
  giveResult s (.codeword (.address a f c q)) []

/-- MESSAGE (R140): the value with its three fields, none of them tested (R75). -/
def execMessage (m : BitVec 20) (c : BitVec 10) (q : BitVec 1) (s : State) : Host.Outcome State Fault Refusal :=
  giveResult s (.codeword (.message m c q)) []

/-- DECODE (R130). -/
def execDecode (B : Bits) (s : State) : Host.Outcome State Fault Refusal :=
  giveResult s (.codewords (decodeStream B)) (decodeConditions B)

/-- SYNCMATCH (R132). Where the window does not lie in the bit string the read is not defined (R44): refused. -/
def execSyncMatch (B : Bits) (i : Nat) (s : State) : Host.Outcome State Fault Refusal :=
  if i + 32 ≤ B.length then giveResult s (.matched (syncMatch B i)) [] else .refused .windowOutside

/-- BATCH (R133): a skipped occurrence gives nothing and raises EV_SHORTBATCH (R184). -/
def execBatch (B : Bits) (i : Nat) (s : State) : Host.Outcome State Fault Refusal :=
  giveResult s (.batch (batchAt B i)) (if (batchAt B i).isNone then [.evShortBatch] else [])

/-- SLICE (R135). A string that is not 512 bits is no batch (R66): refused. -/
def execSlice (b : Bits) (s : State) : Host.Outcome State Fault Refusal :=
  if b.length = 512 then giveResult s (.slices (sliceBatch b)) [] else .refused .badBatchLength

/-- CLASSIFY (R137): total on every 32-bit word (R74). -/
def execClassify (cw : Word32) (s : State) : Host.Outcome State Fault Refusal :=
  giveResult s (.codeword (classify cw)) []

end Sys2Proof.Machine
end

