-- ==== Sys2Proof/Machine/MsgAsm.lean ====
section
/-! DEFINITION. MSGASM (42_message_assembler.md): the fold over the codewords, septet decoding and the Result line. It is
downstream of the hardware block (R6) and keeps nothing between calls (R24). -/

namespace Sys2Proof.Machine

/-- The accumulators of one ASSEMBLE (R24, R160). -/
structure Accu where
  address : Option (BitVec 18)
  messageBits : Bits
deriving DecidableEq, Repr

/-- `address` unset, `messageBits` empty (R38). -/
def accuStart : Accu := { address := none, messageBits := [] }

/-- One codeword of the fold: the last address wins (R161), a payload is appended as 20 bits (R162), Idle is ignored
(R163). -/
def accuTake (a : Accu) : Codeword → Accu
  | .idle => a
  | .address ad _ _ _ => { a with address := some ad }
  | .message m _ _ => { a with messageBits := a.messageBits ++ bitsOf 20 m.toNat }

/-- The character code of a 7-bit group: its bits reversed, read big-endian (R164). -/
def septetCode (g : Bits) : Septet := BitVec.ofNat 7 (be g.reverse)

/-- SEPTET: the complete 7-bit groups in order, the bits left over dropped (R164). -/
def septets (mb : Bits) : Text := (List.range (mb.length / 7)).map fun j => septetCode (substr mb (7 * j) 7)

/-- A hexadecimal digit, `0123456789abcdef`, as its character code (R166). -/
def hexDigit (d : Nat) : Septet := BitVec.ofNat 7 (if d < 10 then 48 + d else 87 + d)

/-- The five base-16 digits of an 18-bit number, most significant first. -/
def hexDigits5 (a : BitVec 18) : List Nat := [4, 3, 2, 1, 0].map fun k => a.toNat / 16 ^ k % 16

/-- `hex(a)`: lowercase, no prefix, no leading zeros, the single digit 0 for 0 (R166). -/
def hexText (a : BitVec 18) : Text :=
  match (hexDigits5 a).dropWhile (fun d => d == 0) with
  | [] => [hexDigit 0]
  | ds => ds.map hexDigit

/-- Space, hyphen-minus, space (R83). -/
def separator : Text := [32, 45, 32]

/-- FORMAT: the Result line (R166). -/
def formatLine (address : Option (BitVec 18)) (text : Text) : Text :=
  match address with
  | some a => hexText a ++ separator ++ text
  | none => text

/-- ASSEMBLE: one line from all the codewords of one emission (R160). -/
def assembleLine (cws : List Codeword) : Text :=
  let a := cws.foldl accuTake accuStart
  formatLine a.address (septets a.messageBits)

/-- The character map: code `v` is the character whose ASCII code is `v`, all 128 of them (R165). PRESUMED: the ASCII table
itself is general knowledge (93 G1, notes/assumptions/14.md). -/
def charOf (v : Septet) : Char := Char.ofNat v.toNat

/-- A text as characters (R165). -/
def render (t : Text) : List Char := t.map charOf

/-! The operations. -/

/-- ASSEMBLE (R160). -/
def execAssemble (cws : List Codeword) (s : State) : Host.Outcome State Fault Refusal :=
  giveResult s (.line (assembleLine cws)) []

/-- SEPTET (R164). -/
def execSeptet (mb : Bits) (s : State) : Host.Outcome State Fault Refusal :=
  giveResult s (.text (septets mb)) []

/-- FORMAT (R166). -/
def execFormat (address : Option (BitVec 18)) (text : Text) (s : State) : Host.Outcome State Fault Refusal :=
  giveResult s (.line (formatLine address text)) []

end Sys2Proof.Machine
end

