-- ==== Sys2Proof/Machine/SymSync.lean ====
section
/-! DEFINITION. SYMSYNC (40_symbol_synchronizer.md): RESET, ADDSAMPLE, its eight arms and ENDSTREAM. The action of each arm is
one function on the record; a call is the composition R102 and R110 give; each operation of the table is one `exec`
definition. -/

namespace Sys2Proof.Machine

/-! The actions of the arms. -/

/-- R105. -/
def actUSame (st : SymSync) : SymSync := countSample st

/-- R107 with R106: the level appended is that of the run that ended. -/
def actUEdgeOk (cfg : Cfg) (st : SymSync) : SymSync :=
  let st1 := bufAppend cfg st.last st
  restartRun { st1 with preambCount := st1.preambCount + 1 }

/-- R108 with R106. -/
def actUEdgeBad (st : SymSync) : SymSync := restartRun (bufClear { st with preambCount := 0 })

/-- R109. -/
def actULock (cfg : Cfg) (st : SymSync) : SymSync := acquireLock cfg st

/-- R111: the level appended is that of the current sample. -/
def actLMid (cfg : Cfg) (s : Bool) (st : SymSync) : SymSync := bufAppend cfg s st

/-- R112. -/
def actLSame (st : SymSync) : SymSync := countSample st

/-- R113. -/
def actLEdgeKeep (st : SymSync) : SymSync := restartRun st

/-- R114. -/
def actLEdgeLose (st : SymSync) : SymSync := loseLock st

/-! The calls. -/

/-- The first action of a Locked call: L_MID where its condition holds on the entry count (R110, R111). -/
def midFirst (cfg : Cfg) (s : Bool) (st : SymSync) : SymSync :=
  if midpoint cfg st.sampCount then actLMid cfg s st else st

/-- The emission of lock loss: the buffer, or, in a call that has overflowed, the free value (R114, R194 c). -/
def lossEmission (n : Nat) (st : SymSync) : Option Bits :=
  if st.ovf then Config.overflowEmission n else some st.buffer

/-- A call that runs U_SAME. -/
def callUSame (s : Bool) (st : SymSync) : Reply :=
  { st := setLast s (actUSame st), out := none, raised := [], used := 0 }

/-- A call that runs U_EDGE_BAD (R108, R181). -/
def callUEdgeBad (s : Bool) (st : SymSync) : Reply :=
  { st := setLast s (actUEdgeBad st), out := none, raised := [.evDesync], used := 0 }

/-- A call that runs U_EDGE_OK and then U_LOCK (R107, R109, R182). -/
def callULock (cfg : Cfg) (s : Bool) (st : SymSync) : Reply :=
  let st1 := actUEdgeOk cfg st
  { st := setLast s (actULock cfg st1), out := none, raised := overflowRaised st1 ++ [.evLock], used := 0 }

/-- A call that runs U_EDGE_OK, and U_LOCK after it when `preambCount` has become `K` (R107, R109). -/
def callUEdgeOk (cfg : Cfg) (s : Bool) (st : SymSync) : Reply :=
  let st1 := actUEdgeOk cfg st
  if st1.preambCount = cfg.K then callULock cfg s st
  else { st := setLast s st1, out := none, raised := overflowRaised st1, used := 0 }

/-- A Locked call after its midpoint test, without an edge: L_SAME. -/
def closeLSame (s : Bool) (st1 : SymSync) : Reply :=
  { st := setLast s (actLSame st1), out := none, raised := overflowRaised st1, used := 0 }

/-- A Locked call after its midpoint test, on an edge that keeps lock: L_EDGE_KEEP. -/
def closeLEdgeKeep (s : Bool) (st1 : SymSync) : Reply :=
  { st := setLast s (actLEdgeKeep st1), out := none, raised := overflowRaised st1, used := 0 }

/-- A Locked call after its midpoint test, on an edge that loses lock: L_EDGE_LOSE; an overflow is recorded before
the loss (R194 c). -/
def closeLEdgeLose (n : Nat) (s : Bool) (st1 : SymSync) : Reply :=
  { st := setLast s (actLEdgeLose st1), out := lossEmission n st1, raised := overflowRaised st1 ++ [.evLockLoss],
    used := if st1.ovf then 1 else 0 }

/-- The end of a Locked call: its one arm after L_MID, by the edge and by the count on entry (R110). -/
def closeLocked (cfg : Cfg) (n : Nat) (s : Bool) (entry : SymSync) (st1 : SymSync) : Reply :=
  if edge entry s = false then closeLSame s st1
  else if tooShort cfg entry.sampCount then closeLEdgeLose n s st1
  else closeLEdgeKeep s st1

/-- ADDSAMPLE on the corrected sample: the state on entry selects the arms (R102). `n` is the counter of free values. -/
def callSample (cfg : Cfg) (n : Nat) (s : Bool) (st : SymSync) : Reply :=
  match st.state with
  | .unlocked =>
    if edge st s = false then callUSame s st
    else if inTolerance cfg st.sampCount then callUEdgeOk cfg s st
    else callUEdgeBad s st
  | .locked => closeLocked cfg n s st (midFirst cfg s st)

/-! The operations. -/

/-- RESET (R100, R211): the record takes its reset values, a DECODE in progress is abandoned, samples are accepted again;
the configuration is not touched and nothing is emitted. -/
def execReset (s : State) : Host.Outcome State Fault Refusal :=
  if admitted s.cfg = false then .refused .refuseConfig
  else .next { s with st := resetSync, ended := false, stage := .idle, result := .none, raised := [] }

/-- ADDSAMPLE(raw) (R102). -/
def execAddSample (raw : Bool) (s : State) : Host.Outcome State Fault Refusal :=
  takeReply s (some (callSample s.cfg s.freeCount (corrected s.cfg raw) s.st))

/-- U_SAME (R105): the call that runs it. -/
def execUSame (raw : Bool) (s : State) : Host.Outcome State Fault Refusal :=
  let smp := corrected s.cfg raw
  takeReply s (if selUSame s.st smp then some (callUSame smp s.st) else none)

/-- U_EDGE_OK (R107): the call that runs it, U_LOCK following when `preambCount` has become `K`. -/
def execUEdgeOk (raw : Bool) (s : State) : Host.Outcome State Fault Refusal :=
  let smp := corrected s.cfg raw
  takeReply s (if selUEdgeOk s.cfg s.st smp then some (callUEdgeOk s.cfg smp s.st) else none)

/-- U_EDGE_BAD (R108): the call that runs it. -/
def execUEdgeBad (raw : Bool) (s : State) : Host.Outcome State Fault Refusal :=
  let smp := corrected s.cfg raw
  takeReply s (if selUEdgeBad s.cfg s.st smp then some (callUEdgeBad smp s.st) else none)

/-- U_LOCK (R109): the call that runs it, after its U_EDGE_OK. -/
def execULock (raw : Bool) (s : State) : Host.Outcome State Fault Refusal :=
  let smp := corrected s.cfg raw
  takeReply s (if selULock s.cfg s.st smp then some (callULock s.cfg smp s.st) else none)

/-- L_MID (R111): the call that runs it, with the arm that ends the call (R110). -/
def execLMid (raw : Bool) (s : State) : Host.Outcome State Fault Refusal :=
  let smp := corrected s.cfg raw
  takeReply s
    (if selLMid s.cfg s.st then some (closeLocked s.cfg s.freeCount smp s.st (actLMid s.cfg smp s.st)) else none)

/-- L_SAME (R112): the call that runs it, after its midpoint test. -/
def execLSame (raw : Bool) (s : State) : Host.Outcome State Fault Refusal :=
  let smp := corrected s.cfg raw
  takeReply s (if selLSame s.st smp then some (closeLSame smp (midFirst s.cfg smp s.st)) else none)

/-- L_EDGE_KEEP (R113): the call that runs it, after its midpoint test. -/
def execLEdgeKeep (raw : Bool) (s : State) : Host.Outcome State Fault Refusal :=
  let smp := corrected s.cfg raw
  takeReply s (if selLEdgeKeep s.cfg s.st smp then some (closeLEdgeKeep smp (midFirst s.cfg smp s.st)) else none)

/-- L_EDGE_LOSE (R114): the call that runs it, after its midpoint test. -/
def execLEdgeLose (raw : Bool) (s : State) : Host.Outcome State Fault Refusal :=
  let smp := corrected s.cfg raw
  takeReply s
    (if selLEdgeLose s.cfg s.st smp then some (closeLEdgeLose s.freeCount smp (midFirst s.cfg smp s.st)) else none)

/-- ENDSTREAM (R115, R187): nothing of `st` is written and nothing is emitted; no sample is accepted until RESET. -/
def execEndStream (s : State) : Host.Outcome State Fault Refusal :=
  if admitted s.cfg = false then .refused .refuseConfig
  else .next { s with ended := true, result := .none, raised := [.evEndStream] }

end Sys2Proof.Machine
end

