-- ==== Sys2Proof/Machine/Dispatch.lean ====
section
/-! DEFINITION. The meaning of each operation: one arm per constructor, one direct call of its own definition. -/

namespace Sys2Proof.Machine

def exec (i : Instr) (s : State) : Host.Outcome State Fault Refusal :=
  match i with
  | .sync => Sys2Proof.Machine.execSync s
  | .idle => Sys2Proof.Machine.execIdle s
  | .address a f c q => Sys2Proof.Machine.execAddress a f c q s
  | .message m c q => Sys2Proof.Machine.execMessage m c q s
  | .reset => Sys2Proof.Machine.execReset s
  | .addSample raw => Sys2Proof.Machine.execAddSample raw s
  | .uSame raw => Sys2Proof.Machine.execUSame raw s
  | .uEdgeOk raw => Sys2Proof.Machine.execUEdgeOk raw s
  | .uEdgeBad raw => Sys2Proof.Machine.execUEdgeBad raw s
  | .uLock raw => Sys2Proof.Machine.execULock raw s
  | .lMid raw => Sys2Proof.Machine.execLMid raw s
  | .lSame raw => Sys2Proof.Machine.execLSame raw s
  | .lEdgeKeep raw => Sys2Proof.Machine.execLEdgeKeep raw s
  | .lEdgeLose raw => Sys2Proof.Machine.execLEdgeLose raw s
  | .endStream => Sys2Proof.Machine.execEndStream s
  | .decode B => Sys2Proof.Machine.execDecode B s
  | .syncMatch B i2 => Sys2Proof.Machine.execSyncMatch B i2 s
  | .batch B i2 => Sys2Proof.Machine.execBatch B i2 s
  | .slice b => Sys2Proof.Machine.execSlice b s
  | .classify cw => Sys2Proof.Machine.execClassify cw s
  | .assemble cws => Sys2Proof.Machine.execAssemble cws s
  | .septet mb => Sys2Proof.Machine.execSeptet mb s
  | .format ad text => Sys2Proof.Machine.execFormat ad text s

end Sys2Proof.Machine
end

