-- ==== Sys2Proof/Machine/Pipeline.lean ====
section
/-! DEFINITION. How operations follow one another: what is taken of what the environment offers, and the downstream stages
that run to completion before the next sample is taken (R50, R55, R194, R228). -/

namespace Sys2Proof.Machine

/-- Nothing is offered: a pause of any length between samples (R193, R203). -/
def offerEmpty (o : Offer) : Bool := !o.rst && o.op.isNone && !o.fin

/-- What is left of an offer goes back to the front, if anything is left. -/
def requeue (o : Offer) (rest : List Offer) : List Offer := if offerEmpty o then rest else o :: rest

/-- An offer without the operation that `decode` reads from it: RESET leaves the sample unconsumed, a sample
leaves ENDSTREAM (R100, R194 e and f; notes/assumptions/12.md). DESIGN CHOICE, unsafe: of RESET and ENDSTREAM offered
together, which the spec does not order, RESET is taken and ENDSTREAM stays offered, so that it ends the stream after the
reset (notes/assumptions/22.md). -/
def lessTaken (o : Offer) : Offer :=
  if o.rst then { o with rst := false, stall := false }
  else
    match o.op with
    | some _ => { o with op := none, stall := false }
    | none => { o with fin := false, stall := false }

/-- The source after the operation at its head was taken. -/
def takeOffer : List Offer → List Offer
  | [] => []
  | o :: rest => requeue (lessTaken o) rest

/-- The source after a step in which the block took nothing: a pause is over, a stall request is used up, an offered
operation or end of stream waits (R228; notes/assumptions/11.md). -/
def passTime : List Offer → List Offer
  | [] => []
  | o :: rest => requeue { o with stall := false } rest

/-- `rst` is sampled high (R192). -/
def resetOffered (source : List Offer) : Bool :=
  match source with
  | [] => false
  | o :: _ => o.rst

/-- The consumer does not take a codeword now: `cw_ready` low (R192, R193). -/
def stallAsked (source : List Offer) : Bool :=
  match source with
  | [] => false
  | o :: _ => o.stall

/-- No downstream work is in progress. -/
def stageIdle : Stage → Bool
  | .idle => true
  | _ => false

/-- The downstream work that the value of an operation calls for: an emission is decoded, a decoded sequence is delivered
(R50, R130 d); nothing follows any other value. -/
def nextStage : Output → Stage
  | .emission (some B) => .decode B
  | .codewords cws => .deliver cws cws
  | _ => .idle

/-- Sets the downstream work after an operation. -/
def advance (t : State) : State := { t with stage := nextStage t.result }

/-- The outcome of an operation within a step. -/
def settle : Host.Outcome State Fault Refusal → Host.Outcome State Fault Refusal
  | .next t => .next (advance t)
  | .fault r => .fault r
  | .refused r => .refused r

/-- Runs what the environment offers; with nothing offered the instance keeps its state (R203). -/
def runOffered (s : State) : Host.Outcome State Fault Refusal :=
  match s.source with
  | [] => .next s
  | o :: rest =>
    if offerEmpty o then .next { s with source := rest }
    else
      match decode o with
      | .error e => .refused (.undecodable e)
      | .ok i => settle (exec i { s with source := takeOffer (o :: rest) })

/-- Does the next piece of downstream work: DECODE of the emission, the delivery of one codeword in order, the end of
the delivery, ASSEMBLE of the sequence (R50, R55, R192). -/
def runStage (s : State) : Host.Outcome State Fault Refusal :=
  let s1 := { s with source := passTime s.source }
  match s.stage with
  | .idle => .next s1
  | .decode B => settle (exec (.decode B) s1)
  | .deliver [] all => .next { s1 with stage := .assemble all, result := .deliveryDone, raised := [] }
  | .deliver (c :: todo) all =>
    if stallAsked s.source then .next { s1 with result := .none, raised := [] }
    else .next { s1 with stage := .deliver todo all, result := .delivered c, raised := [] }
  | .assemble cws => settle (exec (.assemble cws) s1)

end Sys2Proof.Machine
end

