-- ==== Sys2Proof/Machine/Step.lean ====
section
/-! DEFINITION. One step: nothing in an instance whose configuration is not admitted (R188); RESET, at any time (R193); the
downstream work in progress (R50, R228); else what the environment offers. -/

namespace Sys2Proof.Machine

/-- One step of the instance. -/
def step (s : State) : Host.Outcome State Fault Refusal :=
  if admitted s.cfg = false then .refused .refuseConfig
  else if stageIdle s.stage || resetOffered s.source then runOffered s
  else runStage s

/-- The state with an opcode-table word offered next and nothing before it: the block is free to take it. -/
def State.withFetchWord (s : State) (nbits w : Nat) : State :=
  { s with source := tableOffer nbits w :: s.source, stage := .idle }

end Sys2Proof.Machine
end

