-- ==== Sys2Proof/Machine/FiniteCounter.lean ====
section
/-! DEFINITION. The finite realisation of `sampCount` that R27 gives for the reader's use: the pair of the count saturated at
`HI + 1` and the count modulo `L`. The machine itself keeps the unbounded count; that the two cannot be told apart is
a statement about this file. -/

namespace Sys2Proof.Machine

/-- The pair `(sat, ph)` (R27). -/
structure FinCount where
  sat : Nat
  ph : Nat
deriving DecidableEq, Repr

/-- The pair that stands for a count. -/
def finOf (cfg : Cfg) (c : Nat) : FinCount := { sat := min c (hi cfg + 1), ph := c % cfg.L }

/-- The counter at 0. -/
def finZero : FinCount := { sat := 0, ph := 0 }

/-- One more sample: a saturating increment beside an increment that wraps at `L`. -/
def finNext (cfg : Cfg) (p : FinCount) : FinCount :=
  { sat := if p.sat ≤ hi cfg then p.sat + 1 else p.sat, ph := if p.ph + 1 = cfg.L then 0 else p.ph + 1 }

/-- The tolerance test on the pair. -/
def finInTolerance (cfg : Cfg) (p : FinCount) : Bool := decide (lo cfg ≤ p.sat) && decide (p.sat ≤ hi cfg)

/-- The lock-loss test on the pair. -/
def finTooShort (cfg : Cfg) (p : FinCount) : Bool := decide (p.sat < lo cfg)

/-- The midpoint test on the pair. -/
def finMidpoint (cfg : Cfg) (p : FinCount) : Bool := p.ph == half cfg

end Sys2Proof.Machine
end

