-- ==== Sys2Proof/Machine/Ports.lean ====
section
/-! DEFINITION. The outputs of the port binding (R192) as functions of the state: what they show, not in which clock
cycle. DESIGN CHOICE, unsafe: from an overflow until RESET the spec gives the outputs but `ovf` no meaning, and they are shown
from the state all the same (notes/assumptions/24.md). -/

namespace Sys2Proof.Machine

/-- `locked`: 1 is Locked (R29, R192). -/
def portLocked (s : State) : Bool := s.st.state == .locked

/-- `ovf` (R192). -/
def portOvf (s : State) : Bool := s.st.ovf

/-- `s_ready`: the block can take a sample; low while a DECODE is being delivered (R192, R228), and after ENDSTREAM (R115).
DESIGN CHOICE, unsafe: it is high in an overflowed instance with neither, where the spec gives it no meaning and a sample
faults (R116, 93 U5; notes/assumptions/24.md). -/
def portSReady (s : State) : Bool := stageIdle s.stage && !s.ended

/-- One beat of the DECODEDBITS output. -/
structure DbBeat where
  bit : Bool
  last : Bool
  empty : Bool
deriving DecidableEq, Repr

/-- An emission as beats, one bit each in index order, the final one marked; an emission of zero bits is one beat marked
empty, whose bit is ignored (R192). DESIGN CHOICE, unsafe: on that empty beat the spec gives `db_last` no value, there being
no final bit to mark; the model shows `db_last` high and the ignored `db_bit` as 0 (notes/assumptions/23.md). -/
def dbBeats : Bits → List DbBeat
  | [] => [{ bit := false, last := true, empty := true }]
  | [b] => [{ bit := b, last := true, empty := false }]
  | b :: c :: t => { bit := b, last := false, empty := false } :: dbBeats (c :: t)

/-- The DECODEDBITS output: the beats of the last operation's emission, none without one. -/
def portDb (s : State) : List DbBeat :=
  match s.result with
  | .emission (some B) => dbBeats B
  | _ => []

/-- `cw_valid` with `cw_rec`: the codeword record on offer, if there is one (R79, R192). -/
def portCwRec (s : State) : Option (BitVec 34) :=
  match s.stage with
  | .deliver (c :: _) _ => some (cwRec c)
  | _ => none

/-- `cw_done`: the pulse after the last codeword of one DECODE, also when there were none (R192). -/
def portCwDone (s : State) : Bool := s.result == .deliveryDone

/-- The line the caller writes: the Result line of the last operation, suppressed when it is empty (R166, R167). -/
def callerLine (s : State) : Option Text :=
  match s.result with
  | .line [] => none
  | .line (c :: t) => some (c :: t)
  | _ => none

/-- The status output: the numbers of the conditions the last operation raised (R180). -/
def portStatus (s : State) : List Nat := s.raised.map condCode

end Sys2Proof.Machine
end

