-- ==== Sys2Proof/Safety.lean ====
section
/-! DEFINITION. The terms statements are written in: when an instance takes samples, the invariant of 10_state.md R30, the
run of an instance over a stream of samples, and what a consumer takes in a run of steps. -/

namespace Sys2Proof.Machine

/-- The instance takes samples: its configuration is admitted (R188), no ENDSTREAM since RESET (R115), no overflow (R186). -/
abbrev Accepting (s : State) : Prop := admitted s.cfg = true ∧ s.ended = false ∧ s.st.ovf = false

/-- Neighbouring bits differ (R30). -/
def alternating : Bits → Bool
  | [] => true
  | [_] => true
  | a :: b :: t => a != b && alternating (b :: t)

/-- The part of R30 that speaks of an Unlocked record. -/
def UnlockedInv (cfg : Cfg) (st : SymSync) : Prop :=
  st.preambCount < cfg.K ∧ st.buffer.length = st.preambCount ∧ alternating st.buffer = true ∧
    ∀ b, st.buffer.getLast? = some b → b ≠ st.last

/-- The part of R30 that speaks of a Locked record: no preamble count, and with `KEEP_PREAMBLE` the first `K` bits of the
buffer are the alternating preamble. -/
def LockedInv (cfg : Cfg) (st : SymSync) : Prop :=
  st.preambCount = 0 ∧
    (cfg.keepPreamble = true → cfg.K ≤ st.buffer.length ∧ alternating (st.buffer.take cfg.K) = true)

/-- The buffer never holds more than its capacity, and `ovf` is 0 where there is none to exceed (R12, R30, R54). -/
def CapacityInv (cfg : Cfg) (st : SymSync) : Prop :=
  match cfg.bufCapacity with
  | none => st.ovf = false
  | some n => st.buffer.length ≤ n

/-- A result of DECODE: whole batches of sixteen codewords, each a value CLASSIFY can give (R143, R80). -/
def WholeBatches (cws : List Codeword) : Prop := 16 ∣ cws.length ∧ ∀ c ∈ cws, properCodeword c = true

/-- The downstream work holds results of DECODE, and what is still to be delivered is an end part of the whole (R136). -/
def StageInv : Stage → Prop
  | .idle => True
  | .decode _ => True
  | .deliver todo all => WholeBatches all ∧ todo <:+ all
  | .assemble cws => WholeBatches cws

/-- The invariant of an instance (R11, R30). -/
def Inv (s : State) : Prop :=
  admitted s.cfg = true ∧
    (s.st.state = .unlocked → UnlockedInv s.cfg s.st) ∧
    (s.st.state = .locked → LockedInv s.cfg s.st) ∧
    CapacityInv s.cfg s.st ∧ StageInv s.stage

/-- The bit strings one operation emitted. -/
def emitted : Output → List Bits
  | .emission (some B) => [B]
  | _ => []

/-- What came of a stream of samples: the state at the end, the emissions and the conditions raised, in order. -/
structure Trace where
  final : State
  emissions : List Bits
  conds : List Cond
deriving DecidableEq, Repr

/-- ADDSAMPLE on each sample of a stream, in order; `none` where the instance stops. -/
def feed : List Bool → State → Option Trace
  | [], s => some { final := s, emissions := [], conds := [] }
  | x :: xs, s =>
    match exec (.addSample x) s with
    | .next t =>
      match feed xs t with
      | some tr =>
        some { tr with emissions := emitted t.result ++ tr.emissions, conds := t.raised ++ tr.conds }
      | none => none
    | .fault _ => none
    | .refused _ => none

/-- The codeword the consumer took in a step with this result (R192). -/
def taken : Output → List Codeword
  | .delivered c => [c]
  | _ => []

/-- The codewords the consumer took in `n` steps, in order; `none` where the instance stops. -/
def deliveredIn : Nat → State → Option (List Codeword)
  | 0, _ => some []
  | n + 1, s =>
    match step s with
    | .next t => (deliveredIn n t).map fun cws => taken t.result ++ cws
    | .fault _ => none
    | .refused _ => none

/-- The raw samples that a stream of corrected samples comes from (R101). -/
def rawStream (cfg : Cfg) (xs : List Bool) : List Bool := xs.map (fun s => s ^^ cfg.inv)

/-- A stream of runs of `n` samples each, `k` of them, the level alternating from `v` (R17). -/
def runs : Nat → Nat → Bool → List Bool
  | 0, _, _ => []
  | k + 1, n, v => List.replicate n v ++ runs k n (!v)

/-- The number of `c` in `0 .. n - 1` at which the midpoint test holds (R120). -/
def midCount (cfg : Cfg) (n : Nat) : Nat := (List.range n).countP (midpoint cfg)

/-- The indices the scan visits: 0 to `len(B) - 32`, none when `len(B) < 32` (R131). -/
def scanIndices (B : Bits) : List Nat := List.range (B.length + 1 - 32)

/-- An occurrence of the sync word begins at index `i` (R132). -/
abbrev occursAt (B : Bits) (i : Nat) : Prop := substr B i 32 = syncBits

/-- The sequence of codeword values as a bit string, each codeword in transmission order (R80). -/
def encAll (cws : List Codeword) : Bits := cws.flatMap fun c => bitsOfWord (enc c)

end Sys2Proof.Machine
end

