-- ==== Sys2Proof/Certificates/Slice0/Obligations.lean ====
section
/-! DEFINITION. The statements for the provers. Each docstring names what of spec/ it formalises. -/

open Sys2Proof Sys2Proof.Machine

/-! Encodings and classification. -/

/-- Decode and encode agree: every well-formed operation, with every operand, is read back from its offer. The pattern
channels and the sample follow 30_encoding.md; the other selectors are the model's choice (notes/assumptions/3.md). -/
def Obligations.DecodeReadsBackEveryEncoding : Prop :=
  ∀ i : Instr, i.wf = true → decode (encode i) = .ok i

/-- Whatever is offered, the decoder answers a well-formed operation or rejects by name. The model's own
(notes/assumptions/3.md, 17.md). -/
def Obligations.DecodedOperationsAreWellFormed : Prop :=
  ∀ (o : Offer) (i : Instr), decode o = .ok i → i.wf = true

/-- A few words written out from the spec's encodings (R62, R63, R139 and R140 examples, R61). -/
def Obligations.WordsOfTheSpecDecode : Prop :=
  decodeTableWord 32 0x7CD215D8 = some .sync ∧
  decodeTableWord 32 0x7A89C197 = some .idle ∧
  decodeTableWord 32 0x02469800 = some (.address 0x1234 3 0 0) ∧
  decodeTableWord 32 0x89960000 = some (.message 0x132C0 0 0) ∧
  decode (sampleOffer true) = .ok (.addSample true)

/-- The encoding direction (R80): the layouts of `enc`, `bits_n` as an inverse of `be`, and CLASSIFY giving back every
value but the one Address whose encoding is the idle pattern. -/
def Obligations.ClassifyReadsBackEveryCodeword : Prop :=
  bitsOfWord (enc .idle) = idleBits ∧
  (∀ (a : BitVec 18) (f : BitVec 2) (c : BitVec 10) (q : BitVec 1),
    bitsOfWord (enc (.address a f c q)) =
      [false] ++ bitsOf 18 a.toNat ++ bitsOf 2 f.toNat ++ bitsOf 10 c.toNat ++ [q == 1]) ∧
  (∀ (m : BitVec 20) (c : BitVec 10) (q : BitVec 1),
    bitsOfWord (enc (.message m c q)) = [true] ++ bitsOf 20 m.toNat ++ bitsOf 10 c.toNat ++ [q == 1]) ∧
  (∀ n v : Nat, v < 2 ^ n → be (bitsOf n v) = v ∧ (bitsOf n v).length = n) ∧
  (∀ c : Codeword, c ≠ .address 0x3D44E 0 0x0CB 1 → classify (enc c) = c) ∧
  classify (enc (.address 0x3D44E 0 0x0CB 1)) = .idle

/-- No bit of a codeword is lost by classification: the value determines the word (R74; every row of 95_test_vectors.md
2.4 re-encodes to its codeword). -/
def Obligations.EveryWordIsTheEncodingOfItsClass : Prop :=
  ∀ w : Word32, enc (classify w) = w

/-- The classification map in its order of test (R73): Idle on one word, else by the first bit, and what the Address
reading of IDLE would be. -/
def Obligations.ClassificationFollowsTheOrderOfTests : Prop :=
  ∀ w : Word32,
    (classify w = .idle ↔ w = 0x7A89C197#32) ∧
    ((∃ a f c q, classify w = .address a f c q) ↔ w ≠ 0x7A89C197#32 ∧ w &&& 0x80000000#32 = 0#32) ∧
    ((∃ m c q, classify w = .message m c q) ↔ w &&& 0x80000000#32 = 0x80000000#32) ∧
    addressFields 0x7A89C197#32 = .address 0x3D44E 0 0x0CB 1

/-- CLASSIFY completes on every codeword, with the fields of R139 and R140 read big-endian from the bits as received, idle
first (R137, R139, R140). -/
def Obligations.ClassifyExtractsTheFields : Prop :=
  ∀ (cw : Bits) (s : State), cw.length = 32 →
    exec (.classify (wordOf cw)) s = .next { s with
      result := .codeword
        (if cw = idleBits then .idle
         else if cw[0]? = some false then
           .address (BitVec.ofNat 18 (be (substr cw 1 18))) (BitVec.ofNat 2 (be (substr cw 19 2)))
             (BitVec.ofNat 10 (be (substr cw 21 10))) (BitVec.ofNat 1 (be (substr cw 31 1)))
         else
           .message (BitVec.ofNat 20 (be (substr cw 1 20))) (BitVec.ofNat 10 (be (substr cw 21 10)))
             (BitVec.ofNat 1 (be (substr cw 31 1))))
      raised := [] }

/-- The four pattern rows complete and change nothing but the operation's value; no check value and no parity is looked at
(R75, R132, R138, R139, R140). The operand of R139 is a codeword that is not IDLE; that ADDRESS with the fields of the idle
pattern gives that Address is the model's choice (notes/assumptions/17.md). -/
def Obligations.PatternRowsGiveTheirValues : Prop :=
  ∀ s : State,
    exec .sync s = .next { s with result := .matched true, raised := [] } ∧
    exec .idle s = .next { s with result := .codeword .idle, raised := [] } ∧
    (∀ a f c q, exec (.address a f c q) s =
      .next { s with result := .codeword (.address a f c q), raised := [] }) ∧
    (∀ m c q, exec (.message m c q) s =
      .next { s with result := .codeword (.message m c q), raised := [] })

/-- A word at a codeword position runs as the pattern row of its class, for all 2^32 words: nothing is refused and
nothing is corrected (R74). -/
def Obligations.EveryCodewordRunsAsItsPatternRow : Prop :=
  ∀ (w : Word32) (s : State), ∃ i : Instr,
    decode (offerOf .codeword 0 (bitsOfWord w)) = .ok i ∧
    exec i s = .next { s with result := .codeword (classify w), raised := [] }

/-- The sync word's shape (R62): the literal pattern, its word form, its only proper border of length 1, so that
two occurrences start at least 31 indices apart. -/
def Obligations.SyncWordOccurrencesAreThirtyOneApart : Prop :=
  syncBits = [0,1,1,1,1,1,0,0,1,1,0,1,0,0,1,0,0,0,0,1,0,1,0,1,1,1,0,1,1,0,0,0].map (fun d : Nat => d == 1) ∧
  be syncBits = 0x7CD215D8 ∧
  syncBits.take 1 = syncBits.drop 31 ∧
  (∀ k, 2 ≤ k → k ≤ 31 → syncBits.take k ≠ syncBits.drop (32 - k)) ∧
  (∀ (B : Bits) (i j : Nat), i < j → occursAt B i → occursAt B j → i + 31 ≤ j)

/-- A codeword equal to SYNC is an Address at a codeword position and an occurrence at the matcher (R76). -/
def Obligations.SyncWordIsAnAddressAtACodewordPosition : Prop :=
  classify 0x7CD215D8#32 = .address 0x3E690 2 0x2EC 0 ∧
  decode (offerOf .codeword 0 syncBits) = .ok (.address 0x3E690 2 0x2EC 0) ∧
  decode (offerOf .window 0 syncBits) = .ok .sync

/-! FRAMEDEC. -/

/-- SYNCMATCH completes on every window of the string and compares all 32 bits in order; as words, with `0x7CD215D8`
(R132). Outside the string the read is not defined (R44) and the model refuses (notes/assumptions/17.md). -/
def Obligations.SyncMatchComparesAllBits : Prop :=
  ∀ (B : Bits) (i : Nat) (s : State),
    (i + 32 ≤ B.length → ∃ m : Bool,
      exec (.syncMatch B i) s = .next { s with result := .matched m, raised := [] } ∧
      (m = true ↔ ∀ j, j < 32 → B[i + j]? = syncBits[j]?) ∧
      (m = true ↔ be (substr B i 32) = 0x7CD215D8)) ∧
    (B.length < i + 32 → exec (.syncMatch B i) s = .refused .windowOutside)

/-- BATCH completes: the 512 bits after the occurrence, all of them or none, a skip raising EV_SHORTBATCH (R133, R48,
R184). The operand of R133 is an occurrence; that BATCH does the same at an index that is none is the model's choice
(notes/assumptions/17.md). -/
def Obligations.BatchTakesAllOrSkips : Prop :=
  ∀ (B : Bits) (i : Nat) (s : State),
    (i + 544 ≤ B.length → exec (.batch B i) s =
      .next { s with result := .batch (some ((B.drop (i + 32)).take 512)), raised := [] }) ∧
    (B.length < i + 544 → exec (.batch B i) s =
      .next { s with result := .batch none, raised := [.evShortBatch] })

/-- SLICE completes on every batch: codeword `2f` is the first half of frame `f` and codeword `2f + 1` its second half,
and every bit belongs to exactly one codeword (R135). A string of another length is no batch (R66); that the model refuses it
is the model's choice (notes/assumptions/17.md). -/
def Obligations.SliceCutsSixteenCodewords : Prop :=
  ∀ (b : Bits) (s : State),
    (b.length = 512 → ∃ ws : List Word32,
      exec (.slice b) s = .next { s with result := .slices ws, raised := [] } ∧
      ws.length = 16 ∧
      (∀ f, f < 8 → ws[2 * f]? = some (wordOf (substr b (64 * f) 32)) ∧
        ws[2 * f + 1]? = some (wordOf (substr b (64 * f + 32) 32))) ∧
      ws.flatMap bitsOfWord = b) ∧
    (b.length ≠ 512 → exec (.slice b) s = .refused .badBatchLength)

/-- DECODE completes on every bit string: it is the scan of every index from 0 to `len(B) - 32` in ascending order, each
occurrence with 512 bits after it giving its sixteen codewords in order, every other occurrence only EV_SHORTBATCH (R130,
R131, R136, R184). The model's own definition scans suffixes; this is the indexed procedure of the spec. -/
def Obligations.DecodeScansEveryIndex : Prop :=
  ∀ (B : Bits) (s : State),
    exec (.decode B) s = .next { s with
      result := .codewords ((scanIndices B).flatMap fun i =>
        if occursAt B i ∧ i + 544 ≤ B.length then
          (List.range 16).map fun k => classify (wordOf (substr B (i + 32 + 32 * k) 32))
        else [])
      raised := (scanIndices B).flatMap fun i =>
        if occursAt B i ∧ B.length < i + 544 then [.evShortBatch] else [] }

/-- The number of codewords of one DECODE (R143). -/
def Obligations.DecodeCountsSixteenPerOccurrence : Prop :=
  ∀ B : Bits,
    (decodeStream B).length =
      16 * (scanIndices B).countP (fun i => decide (occursAt B i ∧ i + 544 ≤ B.length)) ∧
    (B.length < 544 → (decodeStream B).length = 0) ∧
    (544 ≤ B.length → (decodeStream B).length ≤ 16 * ((B.length - 544) / 31 + 1))

/-- Round trip (R142): a sync word and sixteen codewords are decoded to those values first, and to nothing more when
the sync word occurs nowhere else with 512 bits after it. -/
def Obligations.EncodedBatchDecodesToItsCodewords : Prop :=
  ∀ (xs : List Codeword) (rest : Bits) (s : State),
    xs.length = 16 → (∀ x ∈ xs, x ≠ .address 0x3D44E 0 0x0CB 1) →
    ∃ (ys : List Codeword) (rs : List Cond),
      exec (.decode (syncBits ++ encAll xs ++ rest)) s =
        .next { s with result := .codewords (xs ++ ys), raised := rs } ∧
      ((∀ i, 0 < i → i + 544 ≤ 544 + rest.length → ¬ occursAt (syncBits ++ encAll xs ++ rest) i) → ys = []) ∧
      (rest = [] → ys = [])

/-- A sync word in codeword slot `k` of a batch (R134): it appears there as its Address, and, when 512 bits follow it too,
it is parsed as an occurrence of its own, whose codewords `j` are the first batch's codewords `k + 1 + j` where those
exist. -/
def Obligations.OverlappingOccurrenceIsParsedAgain : Prop :=
  ∀ (B : Bits) (i k : Nat), k < 16 →
    occursAt B i → occursAt B (i + 32 + 32 * k) → i + 32 + 32 * k + 544 ≤ B.length →
    (codewordsAt B i)[k]? = some (.address 0x3E690 2 0x2EC 0) ∧
    (codewordsAt B (i + 32 + 32 * k)).length = 16 ∧
    (∀ j, k + 1 + j < 16 → (codewordsAt B (i + 32 + 32 * k))[j]? = (codewordsAt B i)[k + 1 + j]?) ∧
    ∃ u v w, decodeStream B = u ++ codewordsAt B i ++ v ++ codewordsAt B (i + 32 + 32 * k) ++ w

/-! MSGASM. -/

/-- ASSEMBLE completes on every sequence: the last Address decides the prefix, the payloads of all Message codewords are
joined as 20-bit strings, Idle adds nothing (R161, R162, R163). -/
def Obligations.AssembleFoldsTheCodewords : Prop :=
  ∀ (cws : List Codeword) (s : State),
    exec (.assemble cws) s = .next { s with
      result := .line (formatLine
        (cws.filterMap (fun c => match c with | .address a _ _ _ => some a | _ => none)).getLast?
        (septets (cws.flatMap fun c => match c with | .message m _ _ => bitsOf 20 m.toNat | _ => [])))
      raised := [] }

/-- SEPTET completes on every bit string: `len div 7` characters, the first bit of each group the least significant, the rest
dropped (R164). -/
def Obligations.SeptetsAreReversedSevenBitGroups : Prop :=
  ∀ (mb : Bits) (s : State), ∃ t : Text,
    exec (.septet mb) s = .next { s with result := .text t, raised := [] } ∧
    t.length = mb.length / 7 ∧
    ∀ j, j < mb.length / 7 → ∃ v : Septet, t[j]? = some v ∧
      v.toNat = ((List.range 7).map fun k => 2 ^ k * (mb[7 * j + k]?.getD false).toNat).sum

/-- FORMAT completes: the address in base 16 with lowercase digits, no leading zero, one digit for 0, then the separator,
then the text; without an address the text alone (R166). -/
def Obligations.FormatWritesTheResultLine : Prop :=
  ∀ (t : Text) (s : State),
    exec (.format none t) s = .next { s with result := .line t, raised := [] } ∧
    ∀ a : BitVec 18, ∃ ds : List Nat,
      exec (.format (some a) t) s = .next { s with
        result := .line (ds.map (fun d => BitVec.ofNat 7 (if d < 10 then 48 + d else 87 + d)) ++ [32, 45, 32] ++ t)
        raised := [] } ∧
      Nat.ofDigits 16 ds.reverse = a.toNat ∧ (∀ d ∈ ds, d < 16) ∧ ds ≠ [] ∧
      (1 < ds.length → ds.head? ≠ some 0)

/-- The corrected example of GRX (R168): one Message codeword gives exactly `1234 - Hi`, two give three characters of code 0
more. -/
def Obligations.ResultLineOfTheExample : Prop :=
  ∀ c q c' q',
    render (assembleLine [.address 0x1234 0 0 0, .message 0x132C0 c q]) = "1234 - Hi".toList ∧
    assembleLine [.address 0x1234 0 0 0, .message 0x132C0 c q, .message 0 c' q'] =
      assembleLine [.address 0x1234 0 0 0, .message 0x132C0 c q] ++ [0, 0, 0]

/-! Configuration and thresholds. -/

/-- The thresholds over the rationals (R10). -/
def Obligations.ThresholdsBracketTheToleranceInterval : Prop :=
  ∀ cfg : Cfg, admitted cfg = true →
    (lo cfg : ℤ) = ⌈((cfg.L * (cfg.tolDen - cfg.tolNum) : ℚ) / cfg.tolDen)⌉ ∧
    (hi cfg : ℤ) = ⌊((cfg.L * (cfg.tolDen + cfg.tolNum) : ℚ) / cfg.tolDen)⌋ ∧
    ∀ c : Nat,
      (((c : ℚ) / cfg.L ∈ Set.Icc (1 - (cfg.tolNum : ℚ) / cfg.tolDen) (1 + (cfg.tolNum : ℚ) / cfg.tolDen)) ↔
        lo cfg ≤ c ∧ c ≤ hi cfg) ∧
      ((c : ℚ) < cfg.L * (1 - (cfg.tolNum : ℚ) / cfg.tolDen) ↔ c < lo cfg)

/-- The admitted configurations and their consequences, and that nothing runs in any other (R11, R188). -/
def Obligations.OnlyAdmittedConfigurationsRun : Prop :=
  ∀ s : State,
    (admitted s.cfg = true ↔
      1 ≤ s.cfg.L ∧ s.cfg.tolNum < s.cfg.tolDen ∧ 1 ≤ s.cfg.K ∧ ∀ n, s.cfg.bufCapacity = some n → s.cfg.K ≤ n) ∧
    (admitted s.cfg = true →
      1 ≤ lo s.cfg ∧ lo s.cfg ≤ s.cfg.L ∧ s.cfg.L ≤ hi s.cfg ∧ hi s.cfg ≤ 2 * s.cfg.L - 1) ∧
    (admitted s.cfg = false →
      step s = .refused .refuseConfig ∧ exec .reset s = .refused .refuseConfig ∧
      exec .endStream s = .refused .refuseConfig ∧ ∀ raw, exec (.addSample raw) s = .refused .refuseConfig)

/-- The finite realisation of the run counter (R27): the pair counts with it and every test reads the same on it. -/
def Obligations.FiniteCounterIsIndistinguishable : Prop :=
  ∀ cfg : Cfg, admitted cfg = true →
    finOf cfg 0 = finZero ∧
    ∀ c : Nat,
      finOf cfg (c + 1) = finNext cfg (finOf cfg c) ∧
      finInTolerance cfg (finOf cfg c) = inTolerance cfg c ∧
      finTooShort cfg (finOf cfg c) = tooShort cfg c ∧
      finMidpoint cfg (finOf cfg c) = midpoint cfg c ∧
      (finOf cfg c).sat ≤ hi cfg + 1 ∧ (finOf cfg c).ph < cfg.L

/-! SYMSYNC: reset, the arms, the end of the stream, overflow. -/

/-- RESET completes from every state of an admitted instance: the six fields take their values, the configuration stays,
nothing is emitted and a DECODE in progress is abandoned (R37, R210, R211). -/
def Obligations.ResetSetsEveryField : Prop :=
  ∀ s : State, admitted s.cfg = true →
    exec .reset s = .next { s with
      st := { state := .unlocked, last := false, sampCount := 0, preambCount := 0, buffer := [], ovf := false }
      ended := false, stage := .idle, result := .none, raised := [] }

/-- The machine right after reset holds the spec's values (R37), and RESET there changes nothing (R100). -/
def Obligations.ResetStateHoldsTheSpecValues : Prop :=
  State.reset.st =
    { state := .unlocked, last := false, sampCount := 0, preambCount := 0, buffer := [], ovf := false } ∧
  exec .reset State.reset = .next State.reset

/-- U_SAME (R105): the call completes and counts the sample; `last` is what it was. That U_SAME as an
operation is the whole call is the model's choice (notes/assumptions/5.md). -/
def Obligations.USameCountsTheSample : Prop :=
  ∀ (s : State) (raw : Bool), Accepting s →
    s.st.state = .unlocked → (raw ^^ s.cfg.inv) = s.st.last →
    let t := { s with
      st := { s.st with sampCount := s.st.sampCount + 1 }, result := .emission none, raised := [] }
    exec (.uSame raw) s = .next t ∧ exec (.addSample raw) s = .next t

/-- U_EDGE_OK (R107, R106, R103) without lock: the level of the run that ended is appended and the run counted; both limits of
the tolerance are inside. That U_EDGE_OK as an operation is the whole call is the model's choice (notes/assumptions/5.md). -/
def Obligations.UEdgeOkCountsThePreambleRun : Prop :=
  ∀ (s : State) (raw : Bool), Accepting s →
    s.st.state = .unlocked → (raw ^^ s.cfg.inv) ≠ s.st.last →
    lo s.cfg ≤ s.st.sampCount → s.st.sampCount ≤ hi s.cfg →
    bufFull s.cfg s.st = false → s.st.preambCount + 1 ≠ s.cfg.K →
    let t := { s with
      st := { s.st with
        last := raw ^^ s.cfg.inv, sampCount := 0, preambCount := s.st.preambCount + 1
        buffer := s.st.buffer ++ [s.st.last] }
      result := .emission none, raised := [] }
    exec (.uEdgeOk raw) s = .next t ∧ exec (.addSample raw) s = .next t

/-- U_EDGE_BAD (R108, R106, R103, R181): a run out of tolerance restarts the preamble count and clears the buffer. That
U_EDGE_BAD as an operation is the whole call is the model's choice (notes/assumptions/5.md). -/
def Obligations.UEdgeBadRestartsThePreamble : Prop :=
  ∀ (s : State) (raw : Bool), Accepting s →
    s.st.state = .unlocked → (raw ^^ s.cfg.inv) ≠ s.st.last →
    (s.st.sampCount < lo s.cfg ∨ hi s.cfg < s.st.sampCount) →
    let t := { s with
      st := { s.st with last := raw ^^ s.cfg.inv, sampCount := 0, preambCount := 0, buffer := [] }
      result := .emission none, raised := [.evDesync] }
    exec (.uEdgeBad raw) s = .next t ∧ exec (.addSample raw) s = .next t

/-- U_LOCK (R109, R182) after U_EDGE_OK (R107): on the `K`-th valid run the same call locks, both counters at 0, the buffer
cleared unless KEEP_PREAMBLE, nothing emitted. That U_LOCK and U_EDGE_OK as operations are the whole call, U_LOCK with the
U_EDGE_OK before it, is the model's choice (notes/assumptions/5.md). -/
def Obligations.ULockAcquiresLock : Prop :=
  ∀ (s : State) (raw : Bool), Accepting s →
    s.st.state = .unlocked → (raw ^^ s.cfg.inv) ≠ s.st.last →
    lo s.cfg ≤ s.st.sampCount → s.st.sampCount ≤ hi s.cfg →
    bufFull s.cfg s.st = false → s.st.preambCount + 1 = s.cfg.K →
    let t := { s with
      st := { s.st with
        state := .locked, last := raw ^^ s.cfg.inv, sampCount := 0, preambCount := 0
        buffer := if s.cfg.keepPreamble then s.st.buffer ++ [s.st.last] else [] }
      result := .emission none, raised := [.evLock] }
    exec (.uLock raw) s = .next t ∧ exec (.uEdgeOk raw) s = .next t ∧ exec (.addSample raw) s = .next t

/-- L_SAME (R112) after the midpoint test (R110, R111): the current level is appended at a midpoint, and the sample counted;
off the midpoint a full buffer changes nothing. That L_MID as an operation is the whole call is the model's choice
(notes/assumptions/5.md). -/
def Obligations.LSameCountsAfterTheMidpoint : Prop :=
  ∀ (s : State) (raw : Bool), Accepting s →
    s.st.state = .locked → (raw ^^ s.cfg.inv) = s.st.last →
    (s.st.sampCount % s.cfg.L = s.cfg.L / 2 → bufFull s.cfg s.st = false) →
    let mid := s.st.sampCount % s.cfg.L = s.cfg.L / 2
    let t := { s with
      st := { s.st with
        sampCount := s.st.sampCount + 1
        buffer := if mid then s.st.buffer ++ [raw ^^ s.cfg.inv] else s.st.buffer }
      result := .emission none, raised := [] }
    exec (.lSame raw) s = .next t ∧ exec (.addSample raw) s = .next t ∧
      (mid → exec (.lMid raw) s = .next t)

/-- L_EDGE_KEEP (R113) after the midpoint test (R110, R111): the counter restarts; no upper limit is tested, and off the
midpoint a full buffer changes nothing. That L_MID as an operation is the whole call is the model's choice
(notes/assumptions/5.md). -/
def Obligations.LEdgeKeepRestartsTheCounter : Prop :=
  ∀ (s : State) (raw : Bool), Accepting s →
    s.st.state = .locked → (raw ^^ s.cfg.inv) ≠ s.st.last → lo s.cfg ≤ s.st.sampCount →
    (s.st.sampCount % s.cfg.L = s.cfg.L / 2 → bufFull s.cfg s.st = false) →
    let mid := s.st.sampCount % s.cfg.L = s.cfg.L / 2
    let t := { s with
      st := { s.st with
        last := raw ^^ s.cfg.inv, sampCount := 0
        buffer := if mid then s.st.buffer ++ [raw ^^ s.cfg.inv] else s.st.buffer }
      result := .emission none, raised := [] }
    exec (.lEdgeKeep raw) s = .next t ∧ exec (.addSample raw) s = .next t ∧
      (mid → exec (.lMid raw) s = .next t)

/-- L_EDGE_LOSE (R114, R183) after the midpoint test (R110, R111): the buffer, with the bit of this call if it is a midpoint,
is emitted, be it empty, or full off the midpoint, and buffer and counters are cleared. That L_MID as an operation is the
whole call is the model's choice (notes/assumptions/5.md). -/
def Obligations.LEdgeLoseEmitsTheBuffer : Prop :=
  ∀ (s : State) (raw : Bool), Accepting s →
    s.st.state = .locked → (raw ^^ s.cfg.inv) ≠ s.st.last → s.st.sampCount < lo s.cfg →
    (s.st.sampCount % s.cfg.L = s.cfg.L / 2 → bufFull s.cfg s.st = false) →
    let mid := s.st.sampCount % s.cfg.L = s.cfg.L / 2
    let t := { s with
      st := { s.st with
        state := .unlocked, last := raw ^^ s.cfg.inv, sampCount := 0, preambCount := 0, buffer := [] }
      result := .emission (some (if mid then s.st.buffer ++ [raw ^^ s.cfg.inv] else s.st.buffer))
      raised := [.evLockLoss] }
    exec (.lEdgeLose raw) s = .next t ∧ exec (.addSample raw) s = .next t ∧
      (mid → exec (.lMid raw) s = .next t)

/-- L_MID on a full buffer (R116, R186): the bit is not appended, `ovf` is set and FAULT_OVERFLOW recorded first. Whether a
losing edge in the same call emits is a free value (93 U5): the statement holds for every one. That L_MID as an operation is
the whole call is the model's choice (notes/assumptions/5.md). -/
def Obligations.MidpointOnAFullBufferOverflows : Prop :=
  ∀ (s : State) (raw : Bool), Accepting s →
    s.st.state = .locked → s.st.sampCount % s.cfg.L = s.cfg.L / 2 → bufFull s.cfg s.st = true →
    ∃ t : State, exec (.addSample raw) s = .next t ∧ exec (.lMid raw) s = .next t ∧
      t.st.ovf = true ∧ t.raised.head? = some .faultOverflow ∧ t.st.last = (raw ^^ s.cfg.inv) ∧
      t.cfg = s.cfg ∧ t.ended = s.ended ∧ t.stage = s.stage ∧ t.source = s.source ∧
      (t.st.state = .locked → t.st.buffer = s.st.buffer ∧ t.result = .emission none)

/-- From an overflow until RESET no sample is taken: each of the nine sample operations faults, and RESET clears `ovf`
(R116, R186). That an arm as an operation is a call, and so faults as ADDSAMPLE does, is the model's choice
(notes/assumptions/5.md). -/
def Obligations.OverflowedInstanceFaultsUntilReset : Prop :=
  ∀ (s : State) (raw : Bool), admitted s.cfg = true → s.ended = false → s.st.ovf = true →
    (∀ i ∈ [Instr.addSample raw, .uSame raw, .uEdgeOk raw, .uEdgeBad raw, .uLock raw, .lMid raw, .lSame raw,
      .lEdgeKeep raw, .lEdgeLose raw], exec i s = .fault .bufferOverflow) ∧
    ∃ t, exec .reset s = .next t ∧ t.st.ovf = false

/-- ENDSTREAM completes, writes nothing of `st` and emits nothing; after it each sample operation is refused until RESET
(R115, R187, 93 U9). That an arm as an operation is a call, and so is refused as ADDSAMPLE is, is the model's choice
(notes/assumptions/5.md). -/
def Obligations.EndStreamEndsTheSamples : Prop :=
  ∀ s : State, admitted s.cfg = true →
    exec .endStream s = .next { s with ended := true, result := .none, raised := [.evEndStream] } ∧
    (s.ended = true → ∀ raw, ∀ i ∈ [Instr.addSample raw, .uSame raw, .uEdgeOk raw, .uEdgeBad raw, .uLock raw,
      .lMid raw, .lSame raw, .lEdgeKeep raw, .lEdgeLose raw], exec i s = .refused .streamEnded)

/-- The dispatch table (R102): each arm runs as the ADDSAMPLE call exactly under its selecting condition, and is refused
otherwise; one arm of each group applies. That an arm of the table is the call that runs it, and its refusal outside its
condition, are the model's choice (notes/assumptions/5.md). -/
def Obligations.EachArmRunsExactlyWhenSelected : Prop :=
  ∀ (s : State) (raw : Bool), Accepting s →
    let e := (raw ^^ s.cfg.inv) ≠ s.st.last
    let c := s.st.sampCount
    let arm := fun (i : Instr) (p : Prop) =>
      (p → exec i s = exec (.addSample raw) s) ∧ (¬ p → exec i s = .refused .armNotSelected)
    arm (.uSame raw) (s.st.state = .unlocked ∧ ¬ e) ∧
    arm (.uEdgeOk raw) (s.st.state = .unlocked ∧ e ∧ lo s.cfg ≤ c ∧ c ≤ hi s.cfg) ∧
    arm (.uEdgeBad raw) (s.st.state = .unlocked ∧ e ∧ (c < lo s.cfg ∨ hi s.cfg < c)) ∧
    arm (.uLock raw)
      (s.st.state = .unlocked ∧ e ∧ lo s.cfg ≤ c ∧ c ≤ hi s.cfg ∧ s.st.preambCount + 1 = s.cfg.K) ∧
    arm (.lMid raw) (s.st.state = .locked ∧ c % s.cfg.L = s.cfg.L / 2) ∧
    arm (.lSame raw) (s.st.state = .locked ∧ ¬ e) ∧
    arm (.lEdgeKeep raw) (s.st.state = .locked ∧ e ∧ lo s.cfg ≤ c) ∧
    arm (.lEdgeLose raw) (s.st.state = .locked ∧ e ∧ c < lo s.cfg)

/-- ADDSAMPLE completes on every accepting state and every sample, its last action is `st.last <- s`, and it leaves
everything but `st`, its result, its conditions and the counter of free values as it was (R102, R103). -/
def Obligations.AddSampleCompletesAndStoresTheLevel : Prop :=
  ∀ (s : State) (raw : Bool), Accepting s →
    ∃ t : State, exec (.addSample raw) s = .next t ∧ t.st.last = (raw ^^ s.cfg.inv) ∧
      t.cfg = s.cfg ∧ t.ended = s.ended ∧ t.stage = s.stage ∧ t.source = s.source

/-- ADDSAMPLE emits exactly when it loses lock (R121); a call that overflows is left out, its emission being free. -/
def Obligations.EmissionExactlyOnLockLoss : Prop :=
  ∀ (s t : State) (raw : Bool), exec (.addSample raw) s = .next t → t.st.ovf = false →
    ((∃ B, t.result = .emission (some B)) ↔ s.st.state = .locked ∧ t.st.state = .unlocked) ∧
    ((s.st.state = .locked ∧ t.st.state = .unlocked) ↔
      s.st.state = .locked ∧ (raw ^^ s.cfg.inv) ≠ s.st.last ∧ s.st.sampCount < lo s.cfg)

/-! The invariant. -/

/-- The machine right after reset meets the invariant of R30. -/
def Obligations.ResetMeetsTheInvariant : Prop := Inv State.reset

/-- Every step keeps the invariant of R30: the preamble buffer, the counters and the capacity, and that what is being
delivered is whole batches. -/
def Obligations.EveryStepKeepsTheInvariant : Prop :=
  ∀ s t : State, Inv s → step s = .next t → Inv t

/-- While Unlocked no append overflows (R116), in every state the invariant admits. -/
def Obligations.UnlockedCallNeverOverflows : Prop :=
  ∀ (s t : State) (raw : Bool), Inv s → s.st.state = .unlocked → exec (.addSample raw) s = .next t →
    t.st.ovf = false ∧ Cond.faultOverflow ∉ t.raised

/-! Streams. -/

/-- Emissions and lock sessions (R121): over any stream fed to an Unlocked instance, as long as nothing overflows, each
emission belongs to one lock loss, and acquisitions are the emissions and one more when the stream ends Locked; with an
unbounded buffer every stream is taken and nothing overflows. -/
def Obligations.EmissionsNeverExceedAcquisitions : Prop :=
  ∀ (s : State) (xs : List Bool), Accepting s → s.st.state = .unlocked →
    (s.cfg.bufCapacity = none → ∃ tr, feed xs s = some tr ∧ tr.final.st.ovf = false) ∧
    ∀ tr, feed xs s = some tr → tr.final.st.ovf = false →
      tr.emissions.length = tr.conds.count .evLockLoss ∧
      tr.conds.count .evLock = tr.emissions.length + (if tr.final.st.state = .locked then 1 else 0)

/-- Perfect preamble (R119, R218, 90 C1): from the record after RESET, `K` runs of `L` samples with `L * tol >= 1` leave the
instance Unlocked with `K - 1` runs counted, and one sample more of the other level locks it, for the first time and
with nothing emitted, whichever level comes first. -/
def Obligations.PerfectPreambleLocksOnTheNextEdge : Prop :=
  ∀ (s : State) (v : Bool), Accepting s → s.st = resetSync →
    s.cfg.tolDen ≤ s.cfg.L * s.cfg.tolNum →
    let w := if s.cfg.K % 2 = 0 then v else !v
    (∃ tr, feed (rawStream s.cfg (runs s.cfg.K s.cfg.L v)) s = some tr ∧
      tr.final.st.state = .unlocked ∧ tr.final.st.preambCount = s.cfg.K - 1 ∧ tr.emissions = []) ∧
    (∃ tr, feed (rawStream s.cfg (runs s.cfg.K s.cfg.L v ++ [w])) s = some tr ∧
      tr.final.st.state = .locked ∧ tr.final.st.last = w ∧ tr.final.st.sampCount = 0 ∧
      tr.final.st.preambCount = 0 ∧ (s.cfg.keepPreamble = false → tr.final.st.buffer = []) ∧
      tr.emissions = [] ∧ tr.conds.count .evLock = 1)

/-- Without the margin a perfect signal never locks (R217, R118): with `L * tol < 1`, any number of runs of exactly `L` samples
leaves the instance Unlocked, but for `K = 1` with level 0 first. A first run of level 0 has no edge sample, is measured `L`
and counts as valid (R216), and no later run is: the edge that begins the third run clears the count. With `K = 1` that first
run locks. -/
def Obligations.PerfectSignalNeverLocksWithoutMargin : Prop :=
  ∀ (s : State) (k : Nat) (v : Bool), Accepting s → s.st = resetSync →
    s.cfg.L * s.cfg.tolNum < s.cfg.tolDen →
    let counted : Bits := if v = false ∧ k = 2 then [false] else []
    (v = true ∨ 2 ≤ s.cfg.K →
      ∃ tr, feed (rawStream s.cfg (runs k s.cfg.L v)) s = some tr ∧
        tr.final.st.state = .unlocked ∧ tr.final.st.preambCount = counted.length ∧ tr.final.st.buffer = counted ∧
        tr.emissions = [] ∧ Cond.evLock ∉ tr.conds) ∧
    (v = false ∧ s.cfg.K = 1 →
      ∃ tr, feed (rawStream s.cfg (List.replicate s.cfg.L v ++ [!v])) s = some tr ∧
        tr.final.st.state = .locked ∧ tr.emissions = [] ∧ tr.conds = [.evLock])

/-- A held level keeps lock for ever (R112, R219): one bit of that level at each midpoint, no emission, as long as the buffer
has room for those bits. -/
def Obligations.HeldLevelKeepsLock : Prop :=
  ∀ (s : State) (n : Nat), Accepting s → s.st.state = .locked →
    let mids := (List.range n).countP fun k => midpoint s.cfg (s.st.sampCount + k)
    (∀ cap, s.cfg.bufCapacity = some cap → s.st.buffer.length + mids ≤ cap) →
    ∃ tr, feed (rawStream s.cfg (List.replicate n s.st.last)) s = some tr ∧ tr.emissions = [] ∧
      tr.final.st = { s.st with
        sampCount := s.st.sampCount + n
        buffer := s.st.buffer ++ List.replicate mids s.st.last }

/-- How many midpoints a run of `r` samples has (R120): none when `r - 1 < h`, else `(r - 1 - h) div L + 1`; for
`r = m L + d` with `d` within the window, `m`. -/
def Obligations.RunHasOneMidpointPerSymbol : Prop :=
  ∀ cfg : Cfg, 1 ≤ cfg.L → ∀ r : Nat, 1 ≤ r →
    (r - 1 < half cfg → midCount cfg r = 0) ∧
    (half cfg ≤ r - 1 → midCount cfg r = (r - 1 - half cfg) / cfg.L + 1) ∧
    (∀ (m : Nat) (d : ℤ), 1 ≤ m → (r : ℤ) = m * cfg.L + d → -(cfg.L - 1 - half cfg : ℤ) ≤ d → d ≤ half cfg →
      midCount cfg r = m)

/-- A run of whole symbols in a lock session yields its bits (R120): for `L >= 3`, a run of `m L` samples, whose edge sample
set the counter to 0, appends exactly `m` bits of its level, for which the buffer has room, by the edge that ends it, which
keeps lock. -/
def Obligations.RunOfSymbolsYieldsItsBits : Prop :=
  ∀ (s : State) (m : Nat), Accepting s → s.st.state = .locked → s.st.sampCount = 0 →
    (∀ cap, s.cfg.bufCapacity = some cap → s.st.buffer.length + m ≤ cap) →
    3 ≤ s.cfg.L → 1 ≤ m → lo s.cfg ≤ m * s.cfg.L - 1 →
    ∃ tr, feed (rawStream s.cfg (List.replicate (m * s.cfg.L - 1) s.st.last ++ [!s.st.last])) s = some tr ∧
      tr.emissions = [] ∧
      tr.final.st = { s.st with last := !s.st.last, buffer := s.st.buffer ++ List.replicate m s.st.last }

/-- A run shorter than `L * (1 - tol)` samples in a lock session ends it with exactly one emission (R122). Such a run meets the
midpoint once at most, when it has more than `h` samples; the buffer has room for that one bit (R116). -/
def Obligations.ShortRunEmitsOnceAndUnlocks : Prop :=
  ∀ (s : State) (r : Nat), Accepting s → s.st.state = .locked → s.st.sampCount = 0 →
    (s.cfg.L / 2 < r → bufFull s.cfg s.st = false) →
    1 ≤ r → (r : ℚ) < s.cfg.L * (1 - (s.cfg.tolNum : ℚ) / s.cfg.tolDen) →
    ∃ tr, feed (rawStream s.cfg (List.replicate (r - 1) s.st.last ++ [!s.st.last])) s = some tr ∧
      tr.emissions.length = 1 ∧ tr.final.st.state = .unlocked

/-- Polarity (R101): with `inv` flipped the instance does on the complement of a stream exactly what it did on the stream:
the same states, emissions and conditions. -/
def Obligations.InvertedInstanceOnTheComplementIsTheSame : Prop :=
  ∀ (s : State) (xs : List Bool),
    feed (xs.map fun x => !x) { s with cfg := { s.cfg with inv := !s.cfg.inv } } =
      (feed xs s).map fun tr =>
        { tr with final := { tr.final with cfg := { tr.final.cfg with inv := !tr.final.cfg.inv } } }

/-- What the buffer holds while Unlocked is never seen (R35): with KEEP_PREAMBLE false and an unbounded buffer, two Unlocked
instances that differ in it alone emit and raise the same over every stream. -/
def Obligations.UnlockedBufferIsNeverObserved : Prop :=
  ∀ (s : State) (b : Bits) (xs : List Bool),
    Accepting s → s.cfg.keepPreamble = false → s.cfg.bufCapacity = none → s.st.state = .unlocked →
    ∃ tr tr', feed xs s = some tr ∧ feed xs { s with st := { s.st with buffer := b } } = some tr' ∧
      tr.emissions = tr'.emissions ∧ tr.conds = tr'.conds ∧
      ∃ b', tr'.final = { tr.final with st := { tr.final.st with buffer := b' } } ∧
        (tr.final.st.state = .locked → b' = tr.final.st.buffer)

/-! Steps. -/

/-- A step runs the decoded operation: with no downstream work, the offer at the head is decoded and executed with that
operation taken from the source, and the downstream work its value calls for is set (`settle`). -/
def Obligations.StepRunsTheDecodedOperation : Prop :=
  ∀ (s : State) (o : Offer) (rest : List Offer) (i : Instr),
    admitted s.cfg = true → s.stage = .idle → s.source = o :: rest → decode o = .ok i →
    step s = settle (exec i { s with source := takeOffer (o :: rest) })

/-- RESET wins over whatever is offered with it and whatever is in progress (R100, R193, R194 e, R211): the record takes its reset
values, a delivery is abandoned, and a sample offered with it is not consumed. It covers RESET offered alone. That the sample
stays offered is the model's choice (notes/assumptions/12.md); that ENDSTREAM, or an operation that is no sample, comes after
RESET and stays offered too is the model's choice (notes/assumptions/22.md). -/
def Obligations.ResetWinsOverASample : Prop :=
  ∀ (s : State) (op : Option Slot) (fin stall : Bool) (rest : List Offer),
    admitted s.cfg = true →
    s.source = { rst := true, op := op, fin := fin, stall := stall } :: rest →
    step s = .next { s with
      st := resetSync, ended := false, stage := .idle, result := .none, raised := []
      source :=
        if op = none ∧ fin = false then rest
        else { rst := false, op := op, fin := fin, stall := false } :: rest }

/-- ENDSTREAM offered together with a sample comes after it (R194 f): the step takes the sample and leaves the end
offered. -/
def Obligations.SampleGoesBeforeTheEnd : Prop :=
  ∀ (s : State) (raw stall : Bool) (rest : List Offer),
    Accepting s → s.stage = .idle →
    s.source = { rst := false, op := some { sel := .sample, index := 0, bits := [raw] }, fin := true, stall := stall } :: rest →
    ∃ t, step s = .next t ∧ t.ended = false ∧ t.st.last = (raw ^^ s.cfg.inv) ∧ t.source = finOffer :: rest

/-- Back-pressure (R50, R192, R193, R228): while downstream work is in progress and no RESET is offered, a step completes, takes
nothing that is offered, leaves SYMSYNC and its configuration as they are, and does one piece of the work: DECODE of the
emission, the next codeword, the end of the delivery, ASSEMBLE. A step in which the consumer stalls delivers nothing and
keeps what is to be delivered. The division into steps is the model's choice (notes/assumptions/11.md). -/
def Obligations.NoSampleIsTakenDuringDelivery : Prop :=
  ∀ s : State, admitted s.cfg = true → stageIdle s.stage = false → resetOffered s.source = false →
    ∃ g r cs, step s = .next { s with stage := g, result := r, raised := cs, source := passTime s.source } ∧
      (∀ B, s.stage = .decode B → g = .deliver (decodeStream B) (decodeStream B) ∧ r = .codewords (decodeStream B)) ∧
      (∀ all, s.stage = .deliver [] all → g = .assemble all ∧ r = .deliveryDone ∧ cs = []) ∧
      (∀ c todo all, s.stage = .deliver (c :: todo) all →
        (stallAsked s.source = true → g = s.stage ∧ r = .none ∧ cs = []) ∧
        (stallAsked s.source = false → g = .deliver todo all ∧ r = .delivered c ∧ cs = [])) ∧
      (∀ cws, s.stage = .assemble cws → g = .idle ∧ r = .line (assembleLine cws) ∧ cs = [])

/-- An emission is decoded, delivered codeword by codeword in order, none lost and none repeated, and assembled to one line,
whatever else is offered but RESET and however the consumer stalls (R50, R55, R136, R193): in as many steps as it has
codewords, three more, and at most one more for each stall request. With nothing offered, step `k + 2` delivers codeword `k`.
That these are steps of their own is the model's choice (notes/assumptions/11.md). -/
def Obligations.EmissionIsDeliveredInOrder : Prop :=
  ∀ (s : State) (B : Bits), admitted s.cfg = true → s.stage = .decode B → (∀ o ∈ s.source, o.rst = false) →
    (∃ m, m ≤ s.source.countP (fun o => o.stall) ∧
      let n := (decodeStream B).length + 3 + m
      deliveredIn n s = some (decodeStream B) ∧
      Sys2Proof.core.run n s =
        .next { s with
          stage := .idle, result := .line (assembleLine (decodeStream B)), raised := [], source := passTime^[n] s.source }) ∧
    (s.source = [] → ∀ k, (h : k < (decodeStream B).length) → ∃ t,
      Sys2Proof.core.run (k + 2) s = .next t ∧ t.result = .delivered (decodeStream B)[k] ∧ t.st = s.st)

/-- A lock loss on the sample at the head is followed downstream (R50, R130 d): the step after which the emission, be it
empty, awaits DECODE. -/
def Obligations.LockLossStartsDecoding : Prop :=
  ∀ (s : State) (raw : Bool) (rest : List Offer),
    Accepting s → s.stage = .idle → s.source = sampleOffer raw :: rest →
    s.st.state = .locked → (raw ^^ s.cfg.inv) ≠ s.st.last → s.st.sampCount < lo s.cfg →
    (s.st.sampCount % s.cfg.L = s.cfg.L / 2 → bufFull s.cfg s.st = false) →
    ∃ t B, step s = .next t ∧ t.result = .emission (some B) ∧ t.stage = .decode B ∧ t.st.state = .unlocked ∧
      t.source = rest

/-! Ports. -/

/-- The codeword record (R79): `kind` above the raw codeword, never 3, and, for every value CLASSIFY gives, a function of the raw
codeword. -/
def Obligations.RecordCarriesKindAndRawCodeword : Prop :=
  ∀ c : Codeword,
    (cwRec c).extractLsb' 0 32 = enc c ∧ (cwRec c).extractLsb' 32 2 = kindOf c ∧ kindOf c ≠ 3 ∧
    (properCodeword c = true → kindOf c = kindOf (classify (enc c))) ∧
    (c = .idle → kindOf c = 0 ∧ (cwRec c).extractLsb' 0 32 = 0x7A89C197#32) ∧
    (∀ a f k q, c = .address a f k q →
      kindOf c = 1 ∧ (cwRec c).extractLsb' 13 18 = a ∧ (cwRec c).extractLsb' 11 2 = f ∧
      (cwRec c).extractLsb' 1 10 = k ∧ (cwRec c).extractLsb' 0 1 = q) ∧
    (∀ m k q, c = .message m k q →
      kindOf c = 2 ∧ (cwRec c).extractLsb' 11 20 = m ∧ (cwRec c).extractLsb' 1 10 = k ∧
      (cwRec c).extractLsb' 0 1 = q)

/-- An emission as beats (R192): one bit each in index order with the last one marked, and one beat marked empty for an
emission of zero bits. That `last` is high on that empty beat is the model's choice (notes/assumptions/23.md). -/
def Obligations.EmissionIsShownBitByBit : Prop :=
  ∀ B : Bits,
    (dbBeats B).length = max 1 B.length ∧
    (∀ j, j < (dbBeats B).length → ∃ d, (dbBeats B)[j]? = some d ∧
      (d.last = true ↔ j + 1 = (dbBeats B).length) ∧ (d.empty = true ↔ B = []) ∧
      (B ≠ [] → B[j]? = some d.bit))
end

