-- ==== Sys2Proof/Laws/State.lean ====
section
/-! SUPPORT. The small lemmas of State: what each update leaves in each field, so that no later proof unfolds a record
update. -/

namespace Sys2Proof.Machine

/-! The record `st`. -/

@[simp] theorem bufClear_state (st : SymSync) : (bufClear st).state = st.state := rfl
@[simp] theorem bufClear_last (st : SymSync) : (bufClear st).last = st.last := rfl
@[simp] theorem bufClear_sampCount (st : SymSync) : (bufClear st).sampCount = st.sampCount := rfl
@[simp] theorem bufClear_preambCount (st : SymSync) : (bufClear st).preambCount = st.preambCount := rfl
@[simp] theorem bufClear_buffer (st : SymSync) : (bufClear st).buffer = [] := rfl
@[simp] theorem bufClear_ovf (st : SymSync) : (bufClear st).ovf = st.ovf := rfl

@[simp] theorem restartRun_state (st : SymSync) : (restartRun st).state = st.state := rfl
@[simp] theorem restartRun_last (st : SymSync) : (restartRun st).last = st.last := rfl
@[simp] theorem restartRun_sampCount (st : SymSync) : (restartRun st).sampCount = 0 := rfl
@[simp] theorem restartRun_preambCount (st : SymSync) : (restartRun st).preambCount = st.preambCount := rfl
@[simp] theorem restartRun_buffer (st : SymSync) : (restartRun st).buffer = st.buffer := rfl
@[simp] theorem restartRun_ovf (st : SymSync) : (restartRun st).ovf = st.ovf := rfl

@[simp] theorem countSample_state (st : SymSync) : (countSample st).state = st.state := rfl
@[simp] theorem countSample_last (st : SymSync) : (countSample st).last = st.last := rfl
@[simp] theorem countSample_sampCount (st : SymSync) : (countSample st).sampCount = st.sampCount + 1 := rfl
@[simp] theorem countSample_preambCount (st : SymSync) : (countSample st).preambCount = st.preambCount := rfl
@[simp] theorem countSample_buffer (st : SymSync) : (countSample st).buffer = st.buffer := rfl
@[simp] theorem countSample_ovf (st : SymSync) : (countSample st).ovf = st.ovf := rfl

@[simp] theorem setLast_state (s : Bool) (st : SymSync) : (setLast s st).state = st.state := rfl
@[simp] theorem setLast_last (s : Bool) (st : SymSync) : (setLast s st).last = s := rfl
@[simp] theorem setLast_sampCount (s : Bool) (st : SymSync) : (setLast s st).sampCount = st.sampCount := rfl
@[simp] theorem setLast_preambCount (s : Bool) (st : SymSync) : (setLast s st).preambCount = st.preambCount := rfl
@[simp] theorem setLast_buffer (s : Bool) (st : SymSync) : (setLast s st).buffer = st.buffer := rfl
@[simp] theorem setLast_ovf (s : Bool) (st : SymSync) : (setLast s st).ovf = st.ovf := rfl

@[simp] theorem acquireLock_state (cfg : Cfg) (st : SymSync) : (acquireLock cfg st).state = .locked := rfl
@[simp] theorem acquireLock_last (cfg : Cfg) (st : SymSync) : (acquireLock cfg st).last = st.last := rfl
@[simp] theorem acquireLock_sampCount (cfg : Cfg) (st : SymSync) : (acquireLock cfg st).sampCount = 0 := rfl
@[simp] theorem acquireLock_preambCount (cfg : Cfg) (st : SymSync) : (acquireLock cfg st).preambCount = 0 := rfl
@[simp] theorem acquireLock_buffer (cfg : Cfg) (st : SymSync) : (acquireLock cfg st).buffer = if cfg.keepPreamble then st.buffer else [] := rfl
@[simp] theorem acquireLock_ovf (cfg : Cfg) (st : SymSync) : (acquireLock cfg st).ovf = st.ovf := rfl

@[simp] theorem loseLock_state (st : SymSync) : (loseLock st).state = .unlocked := rfl
@[simp] theorem loseLock_last (st : SymSync) : (loseLock st).last = st.last := rfl
@[simp] theorem loseLock_sampCount (st : SymSync) : (loseLock st).sampCount = 0 := rfl
@[simp] theorem loseLock_preambCount (st : SymSync) : (loseLock st).preambCount = 0 := rfl
@[simp] theorem loseLock_buffer (st : SymSync) : (loseLock st).buffer = [] := rfl
@[simp] theorem loseLock_ovf (st : SymSync) : (loseLock st).ovf = st.ovf := rfl

@[simp] theorem bufAppend_state (cfg : Cfg) (b : Bool) (st : SymSync) : (bufAppend cfg b st).state = st.state := by
  unfold bufAppend; split <;> rfl

@[simp] theorem bufAppend_last (cfg : Cfg) (b : Bool) (st : SymSync) : (bufAppend cfg b st).last = st.last := by
  unfold bufAppend; split <;> rfl

@[simp] theorem bufAppend_sampCount (cfg : Cfg) (b : Bool) (st : SymSync) : (bufAppend cfg b st).sampCount = st.sampCount := by
  unfold bufAppend; split <;> rfl

@[simp] theorem bufAppend_preambCount (cfg : Cfg) (b : Bool) (st : SymSync) : (bufAppend cfg b st).preambCount = st.preambCount := by
  unfold bufAppend; split <;> rfl

theorem bufAppend_buffer (cfg : Cfg) (b : Bool) (st : SymSync) :
    (bufAppend cfg b st).buffer = if bufFull cfg st then st.buffer else st.buffer ++ [b] := by
  unfold bufAppend; split <;> rfl

theorem bufAppend_ovf (cfg : Cfg) (b : Bool) (st : SymSync) :
    (bufAppend cfg b st).ovf = if bufFull cfg st then true else st.ovf := by
  unfold bufAppend; split <;> rfl

/-- With room, BufAppend appends and writes nothing else (R54). -/
theorem bufAppend_of_room {cfg : Cfg} {b : Bool} {st : SymSync} (h : bufFull cfg st = false) :
    bufAppend cfg b st = { st with buffer := st.buffer ++ [b] } := by
  simp [bufAppend, h]

/-- On a full buffer BufAppend sets `ovf` and writes nothing else (R116). -/
theorem bufAppend_of_full {cfg : Cfg} {b : Bool} {st : SymSync} (h : bufFull cfg st = true) :
    bufAppend cfg b st = { st with ovf := true } := by
  simp [bufAppend, h]

@[simp] theorem resetSync_state : resetSync.state = .unlocked := rfl
@[simp] theorem resetSync_last : resetSync.last = false := rfl
@[simp] theorem resetSync_sampCount : resetSync.sampCount = 0 := rfl
@[simp] theorem resetSync_preambCount : resetSync.preambCount = 0 := rfl
@[simp] theorem resetSync_buffer : resetSync.buffer = [] := rfl
@[simp] theorem resetSync_ovf : resetSync.ovf = false := rfl

/-! The whole state. -/

@[simp] theorem advance_cfg (t : State) : (advance t).cfg = t.cfg := rfl
@[simp] theorem advance_st (t : State) : (advance t).st = t.st := rfl
@[simp] theorem advance_ended (t : State) : (advance t).ended = t.ended := rfl
@[simp] theorem advance_stage (t : State) : (advance t).stage = nextStage t.result := rfl
@[simp] theorem advance_result (t : State) : (advance t).result = t.result := rfl
@[simp] theorem advance_raised (t : State) : (advance t).raised = t.raised := rfl
@[simp] theorem advance_source (t : State) : (advance t).source = t.source := rfl
@[simp] theorem advance_freeCount (t : State) : (advance t).freeCount = t.freeCount := rfl

@[simp] theorem withFetchWord_cfg (s : State) (nbits w : Nat) : (s.withFetchWord nbits w).cfg = s.cfg := rfl
@[simp] theorem withFetchWord_st (s : State) (nbits w : Nat) : (s.withFetchWord nbits w).st = s.st := rfl
@[simp] theorem withFetchWord_ended (s : State) (nbits w : Nat) : (s.withFetchWord nbits w).ended = s.ended := rfl
@[simp] theorem withFetchWord_stage (s : State) (nbits w : Nat) : (s.withFetchWord nbits w).stage = .idle := rfl
@[simp] theorem withFetchWord_result (s : State) (nbits w : Nat) : (s.withFetchWord nbits w).result = s.result := rfl
@[simp] theorem withFetchWord_raised (s : State) (nbits w : Nat) : (s.withFetchWord nbits w).raised = s.raised := rfl
@[simp] theorem withFetchWord_source (s : State) (nbits w : Nat) : (s.withFetchWord nbits w).source = tableOffer nbits w :: s.source := rfl
@[simp] theorem withFetchWord_freeCount (s : State) (nbits w : Nat) : (s.withFetchWord nbits w).freeCount = s.freeCount := rfl

@[simp] theorem reset_cfg : State.reset.cfg = resetCfg := rfl
@[simp] theorem reset_st : State.reset.st = resetSync := rfl
@[simp] theorem reset_ended : State.reset.ended = false := rfl
@[simp] theorem reset_stage : State.reset.stage = .idle := rfl
@[simp] theorem reset_result : State.reset.result = .none := rfl
@[simp] theorem reset_raised : State.reset.raised = [] := rfl
@[simp] theorem reset_source : State.reset.source = [] := rfl
@[simp] theorem reset_freeCount : State.reset.freeCount = 0 := rfl

end Sys2Proof.Machine
end

