-- ==== Sys2Proof/Laws/Ops.lean ====
section
/-! SUPPORT. One lemma for each shared operation that says once everything it can do; the provers cite these instead of
unfolding. -/

namespace Sys2Proof.Machine

/-! Operands. -/

@[simp] theorem be_nil : be [] = 0 := rfl

/-- The second equation of `be` (R14). -/
theorem be_append_one (B : Bits) (b : Bool) : be (B ++ [b]) = 2 * be B + b.toNat := by
  simp [be, List.foldl_append]

@[simp] theorem bitsOf_length (n v : Nat) : (bitsOf n v).length = n := by
  induction n with
  | zero => rfl
  | succ n ih => simp [bitsOf, ih]

@[simp] theorem bitsOfWord_length (w : Word32) : (bitsOfWord w).length = 32 := bitsOf_length 32 w.toNat

theorem substr_length (B : Bits) (off n : Nat) : (substr B off n).length = min n (B.length - off) := by
  simp [substr]

/-- BufRead is defined exactly when all its bits exist (R44, R45). -/
theorem bufRead_of_le {B : Bits} {off n : Nat} (h : off + n ≤ B.length) : bufRead B off n = some (substr B off n) := by
  have : (substr B off n).length = n := by rw [substr_length]; omega
  simp [bufRead, this]

theorem bufRead_of_lt {B : Bits} {off n : Nat} (hn : 0 < n) (h : B.length < off + n) : bufRead B off n = none := by
  have : (substr B off n).length ≠ n := by rw [substr_length]; omega
  simp [bufRead, this]

/-! The buffer. -/

/-- BufAppend does one of two things (R54, R116). -/
theorem bufAppend_cases (cfg : Cfg) (b : Bool) (st : SymSync) :
    (bufFull cfg st = false ∧ bufAppend cfg b st = { st with buffer := st.buffer ++ [b] }) ∨
    (bufFull cfg st = true ∧ bufAppend cfg b st = { st with ovf := true }) := by
  cases h : bufFull cfg st
  · exact .inl ⟨rfl, bufAppend_of_room h⟩
  · exact .inr ⟨rfl, bufAppend_of_full h⟩

/-- BufAppend keeps the buffer within its capacity (R12, R54). -/
theorem bufAppend_keeps_capacity {cfg : Cfg} {b : Bool} {st : SymSync} {n : Nat} (hc : cfg.bufCapacity = some n)
    (h : st.buffer.length ≤ n) : (bufAppend cfg b st).buffer.length ≤ n := by
  rcases bufAppend_cases cfg b st with ⟨hf, he⟩ | ⟨-, he⟩
  · rw [he]
    simp [bufFull, hc] at hf
    simpa using hf
  · rw [he]; exact h

/-- With an unbounded buffer there is always room. -/
theorem bufFull_of_unbounded {cfg : Cfg} (h : cfg.bufCapacity = none) (st : SymSync) : bufFull cfg st = false := by
  simp [bufFull, h]

/-! Taking an outcome into the state. -/

/-- If a sample operation answers a next state, the instance was accepting, the operation was the one the dispatch runs,
and the state is the reply (R102, R115, R186, R188). -/
theorem takeReply_next {s t : State} {r : Option Reply} (h : takeReply s r = .next t) :
    Accepting s ∧ ∃ p, r = some p ∧
      t = { s with st := p.st, result := .emission p.out, raised := p.raised, freeCount := s.freeCount + p.used } := by
  unfold takeReply at h
  split at h
  · cases h
  split at h
  · cases h
  split at h
  · cases h
  rename_i h1 h2 h3
  refine ⟨⟨by simpa using h1, by simpa using h2, by simpa using h3⟩, ?_⟩
  cases r with
  | none => cases h
  | some p => cases h; exact ⟨p, rfl, rfl⟩

/-- An accepting instance takes every reply. -/
theorem takeReply_of_accepting {s : State} (h : Accepting s) (p : Reply) :
    takeReply s (some p) = .next { s with
      st := p.st, result := .emission p.out, raised := p.raised, freeCount := s.freeCount + p.used } := by
  obtain ⟨h1, h2, h3⟩ := h
  simp [takeReply, h1, h2, h3]

/-- An accepting instance refuses an arm that the dispatch does not run. -/
theorem takeReply_none_of_accepting {s : State} (h : Accepting s) : takeReply s none = .refused .armNotSelected := by
  obtain ⟨h1, h2, h3⟩ := h
  simp [takeReply, h1, h2, h3]

/-- If an operation settles to a next state, it answered one, and only the downstream work was set. -/
theorem settle_next {x : Host.Outcome State Fault Refusal} {t : State} (h : settle x = .next t) :
    ∃ u, x = .next u ∧ t = advance u := by
  cases x with
  | next u => cases h; exact ⟨u, rfl, rfl⟩
  | fault r => cases h
  | refused r => cases h

/-! The calls of ADDSAMPLE. -/

/-- One call of ADDSAMPLE is one of six (R102): which, and under what condition. -/
theorem callSample_cases (cfg : Cfg) (n : Nat) (s : Bool) (st : SymSync) :
    (selUSame st s = true ∧ callSample cfg n s st = callUSame s st) ∨
    (selUEdgeOk cfg st s = true ∧ callSample cfg n s st = callUEdgeOk cfg s st) ∨
    (selUEdgeBad cfg st s = true ∧ callSample cfg n s st = callUEdgeBad s st) ∨
    (selLSame st s = true ∧ callSample cfg n s st = closeLSame s (midFirst cfg s st)) ∨
    (selLEdgeKeep cfg st s = true ∧ callSample cfg n s st = closeLEdgeKeep s (midFirst cfg s st)) ∨
    (selLEdgeLose cfg st s = true ∧ callSample cfg n s st = closeLEdgeLose n s (midFirst cfg s st)) := by
  cases hs : st.state <;> cases he : edge st s <;> cases ht : inTolerance cfg st.sampCount <;>
    cases hl : tooShort cfg st.sampCount <;>
    simp [callSample, closeLocked, selUSame, selUEdgeOk, selUEdgeBad, selLSame, selLEdgeKeep, selLEdgeLose, hs, he, ht, hl]

/-- Every call stores the corrected level last (R103). -/
theorem callSample_last (cfg : Cfg) (n : Nat) (s : Bool) (st : SymSync) : (callSample cfg n s st).st.last = s := by
  rcases callSample_cases cfg n s st with ⟨-, h⟩ | ⟨-, h⟩ | ⟨-, h⟩ | ⟨-, h⟩ | ⟨-, h⟩ | ⟨-, h⟩ <;> rw [h]
  · rfl
  · unfold callUEdgeOk callULock; dsimp only; split <;> rfl
  all_goals rfl

/-- The midpoint test leaves everything but the buffer and `ovf` (R111, R116). -/
theorem midFirst_cases (cfg : Cfg) (s : Bool) (st : SymSync) :
    midFirst cfg s st = st ∨ midFirst cfg s st = { st with buffer := st.buffer ++ [s] } ∨
      midFirst cfg s st = { st with ovf := true } := by
  unfold midFirst actLMid
  split
  · rcases bufAppend_cases cfg s st with ⟨-, h⟩ | ⟨-, h⟩
    · exact .inr (.inl h)
    · exact .inr (.inr h)
  · exact .inl rfl

/-- Where the midpoint test finds room or does not hold, it appends exactly at a midpoint (R110, R111). -/
theorem midFirst_of_room {cfg : Cfg} {s : Bool} {st : SymSync}
    (h : midpoint cfg st.sampCount = true → bufFull cfg st = false) :
    midFirst cfg s st =
      { st with buffer := if midpoint cfg st.sampCount then st.buffer ++ [s] else st.buffer } := by
  unfold midFirst actLMid
  split
  · rename_i hm; exact bufAppend_of_room (h hm)
  · rfl

/-! The source while the block takes nothing. -/

/-- Waiting drops the head of the source or clears its stall request (R228). -/
theorem passTime_cons (o : Offer) (rest : List Offer) :
    passTime (o :: rest) = rest ∨ passTime (o :: rest) = { o with stall := false } :: rest := by
  cases h : offerEmpty { o with stall := false }
  · exact .inr (by simp [passTime, requeue, h])
  · exact .inl (by simp [passTime, requeue, h])

/-- Waiting offers no RESET that was not offered. -/
theorem passTime_no_reset {src : List Offer} (h : ∀ o ∈ src, o.rst = false) : ∀ o ∈ passTime src, o.rst = false := by
  cases src with
  | nil => exact h
  | cons o rest =>
    rcases passTime_cons o rest with e | e <;> rw [e]
    · exact fun x hx => h x (List.mem_cons_of_mem o hx)
    · intro x hx
      rcases List.mem_cons.mp hx with rfl | hx
      · exact h o List.mem_cons_self
      · exact h x (List.mem_cons_of_mem o hx)

theorem resetOffered_of_no_reset {src : List Offer} (h : ∀ o ∈ src, o.rst = false) : resetOffered src = false := by
  cases src with
  | nil => rfl
  | cons o rest => exact h o List.mem_cons_self

/-- Waiting uses up the stall request at the head, if there is one, and makes none (R193). -/
theorem passTime_countP_stall (src : List Offer) :
    (passTime src).countP (fun o => o.stall) + (stallAsked src).toNat = src.countP (fun o => o.stall) := by
  cases src with
  | nil => rfl
  | cons o rest =>
    rcases passTime_cons o rest with e | e <;> rw [e] <;> cases ho : o.stall <;> simp [stallAsked, ho]

/-! Whole operations and steps. -/

/-- No operation touches the configuration (R22, R211) or what the environment has yet to offer. -/
theorem exec_next_frame {i : Instr} {s t : State} (h : exec i s = .next t) : t.cfg = s.cfg ∧ t.source = s.source := by
  cases i <;>
    simp only [exec, execSync, execIdle, execAddress, execMessage, execReset, execAddSample, execUSame, execUEdgeOk,
      execUEdgeBad, execULock, execLMid, execLSame, execLEdgeKeep, execLEdgeLose, execEndStream, execDecode,
      execSyncMatch, execBatch, execSlice, execClassify, execAssemble, execSeptet, execFormat, giveResult] at h <;>
    first
    | (obtain ⟨-, p, -, rfl⟩ := takeReply_next h; exact ⟨rfl, rfl⟩)
    | (cases h; exact ⟨rfl, rfl⟩)
    | (split at h <;> cases h; exact ⟨rfl, rfl⟩)

/-- If a step answers a next state, the configuration is admitted, and it either ran what is offered, when nothing
was in progress or RESET was offered, or did the downstream work in progress. -/
theorem step_next {s t : State} (h : step s = .next t) :
    admitted s.cfg = true ∧
      (((stageIdle s.stage || resetOffered s.source) = true ∧ runOffered s = .next t) ∨
       ((stageIdle s.stage || resetOffered s.source) = false ∧ runStage s = .next t)) := by
  unfold step at h
  split at h
  · cases h
  rename_i ha
  refine ⟨by simpa using ha, ?_⟩
  split at h
  · rename_i hi; exact .inl ⟨hi, h⟩
  · rename_i hi; exact .inr ⟨by simpa using hi, h⟩

/-- If a step runs what is offered to a next state: nothing was offered, or a pause was passed, or the decoded operation
was executed and settled. -/
theorem runOffered_next {s t : State} (h : runOffered s = .next t) :
    (s.source = [] ∧ t = s) ∨
    (∃ o rest, s.source = o :: rest ∧ offerEmpty o = true ∧ t = { s with source := rest }) ∨
    (∃ o rest i u, s.source = o :: rest ∧ offerEmpty o = false ∧ decode o = .ok i ∧
      exec i { s with source := takeOffer (o :: rest) } = .next u ∧ t = advance u) := by
  unfold runOffered at h
  cases hs : s.source with
  | nil => simp only [hs] at h; cases h; exact .inl ⟨rfl, rfl⟩
  | cons o rest =>
    simp only [hs] at h
    split at h
    · rename_i he; cases h; exact .inr (.inl ⟨o, rest, rfl, he, rfl⟩)
    · rename_i he
      cases hd : decode o with
      | error e => simp only [hd] at h; cases h
      | ok i =>
        simp only [hd] at h
        obtain ⟨u, hu, rfl⟩ := settle_next h
        exact .inr (.inr ⟨o, rest, i, u, rfl, by simpa using he, hd, hu, rfl⟩)

@[simp] theorem taken_delivered (c : Codeword) : taken (.delivered c) = [c] := rfl
@[simp] theorem taken_none : taken .none = [] := rfl
@[simp] theorem taken_codewords (cws : List Codeword) : taken (.codewords cws) = [] := rfl
@[simp] theorem taken_deliveryDone : taken .deliveryDone = [] := rfl
@[simp] theorem taken_line (t : Text) : taken (.line t) = [] := rfl

/-- What the consumer takes in a run of steps, step by step. -/
theorem deliveredIn_succ {n : Nat} {s t : State} (h : step s = .next t) :
    deliveredIn (n + 1) s = (deliveredIn n t).map fun cws => taken t.result ++ cws := by
  simp [deliveredIn, h]

/-- A stream is fed sample by sample. -/
theorem feed_cons {x : Bool} {xs : List Bool} {s t : State} (h : exec (.addSample x) s = .next t) :
    feed (x :: xs) s = (feed xs t).map fun tr =>
      { tr with emissions := emitted t.result ++ tr.emissions, conds := t.raised ++ tr.conds } := by
  simp only [feed, h]
  cases feed xs t <;> rfl

end Sys2Proof.Machine
end

