-- ==== Sys2Proof/Laws/PerInstr.lean ====
section
/-! SUPPORT. The per-instruction family EncodedFormat: a well-formed operation is offered, without a stall request, and its
operand has the width of its format (R60). -/

namespace Sys2Proof.Laws

open Sys2Proof.Machine

/-- The fixed width of the operand's format, where the format has one (R60). -/
def formatWidth : Instr → Option Nat
  | .sync => some 32
  | .idle => some 32
  | .address .. => some 32
  | .message .. => some 32
  | .reset => none
  | .addSample _ => some 1
  | .uSame _ => some 1
  | .uEdgeOk _ => some 1
  | .uEdgeBad _ => some 1
  | .uLock _ => some 1
  | .lMid _ => some 1
  | .lSame _ => some 1
  | .lEdgeKeep _ => some 1
  | .lEdgeLose _ => some 1
  | .endStream => none
  | .decode _ => none
  | .syncMatch _ _ => none
  | .batch _ _ => none
  | .slice _ => some 512
  | .classify _ => some 32
  | .assemble _ => none
  | .septet _ => none
  | .format _ _ => none

end Sys2Proof.Laws

namespace Sys2Proof.Laws.EncodedFormat

open Sys2Proof.Machine

def Statement (i : Instr) : Prop :=
  i.wf = true →
    offerEmpty (encode i) = false ∧ (encode i).stall = false ∧
      ∀ n, formatWidth i = some n → ∀ sl, (encode i).op = some sl → sl.bits.length = n

/-- An operation offered in a slot of the right width meets the statement. -/
theorem of_slot {i : Instr} {sel : Selector} {j : Nat} {B : Bits} (he : encode i = offerOf sel j B)
    (hw : i.wf = true → ∀ n, formatWidth i = some n → B.length = n) : Statement i := by
  intro h
  refine ⟨by rw [he]; rfl, by rw [he]; rfl, ?_⟩
  intro n hn sl hs
  rw [he] at hs
  cases hs
  exact hw h n hn

theorem sync : Statement .sync := of_slot rfl fun _ n h => by cases h; rfl
theorem idle : Statement .idle := of_slot rfl fun _ n h => by cases h; rfl
theorem address (a : BitVec 18) (f : BitVec 2) (c : BitVec 10) (q : BitVec 1) : Statement (.address a f c q) :=
  of_slot rfl fun _ n h => by cases h; exact bitsOfWord_length _
theorem message (m : BitVec 20) (c : BitVec 10) (q : BitVec 1) : Statement (.message m c q) :=
  of_slot rfl fun _ n h => by cases h; exact bitsOfWord_length _
theorem reset : Statement .reset := fun _ => ⟨rfl, rfl, fun n h => by cases h⟩
theorem addSample (raw : Bool) : Statement (.addSample raw) := of_slot rfl fun _ n h => by cases h; rfl
theorem uSame (raw : Bool) : Statement (.uSame raw) := of_slot rfl fun _ n h => by cases h; rfl
theorem uEdgeOk (raw : Bool) : Statement (.uEdgeOk raw) := of_slot rfl fun _ n h => by cases h; rfl
theorem uEdgeBad (raw : Bool) : Statement (.uEdgeBad raw) := of_slot rfl fun _ n h => by cases h; rfl
theorem uLock (raw : Bool) : Statement (.uLock raw) := of_slot rfl fun _ n h => by cases h; rfl
theorem lMid (raw : Bool) : Statement (.lMid raw) := of_slot rfl fun _ n h => by cases h; rfl
theorem lSame (raw : Bool) : Statement (.lSame raw) := of_slot rfl fun _ n h => by cases h; rfl
theorem lEdgeKeep (raw : Bool) : Statement (.lEdgeKeep raw) := of_slot rfl fun _ n h => by cases h; rfl
theorem lEdgeLose (raw : Bool) : Statement (.lEdgeLose raw) := of_slot rfl fun _ n h => by cases h; rfl
theorem endStream : Statement .endStream := fun _ => ⟨rfl, rfl, fun n h => by cases h⟩
theorem decode (B : Bits) : Statement (.decode B) := of_slot rfl fun _ n h => by cases h
theorem syncMatch (B : Bits) (i : Nat) : Statement (.syncMatch B i) := of_slot rfl fun _ n h => by cases h
theorem batch (B : Bits) (i : Nat) : Statement (.batch B i) := of_slot rfl fun _ n h => by cases h
theorem slice (b : Bits) : Statement (.slice b) :=
  of_slot rfl fun hw n h => by cases h; simpa [Instr.wf] using hw
theorem classify (cw : Word32) : Statement (.classify cw) :=
  of_slot rfl fun _ n h => by cases h; exact bitsOfWord_length _
theorem assemble (cws : List Codeword) : Statement (.assemble cws) := of_slot rfl fun _ n h => by cases h
theorem septet (mb : Bits) : Statement (.septet mb) := of_slot rfl fun _ n h => by cases h
theorem format (a : Option (BitVec 18)) (t : Text) : Statement (.format a t) := of_slot rfl fun _ n h => by cases h

end Sys2Proof.Laws.EncodedFormat
end

