-- ==== Sys2Proof/Tests/Slice0.lean ====
section
/-! SUPPORT. Tests: the well-formedness smoke test, every constructor's decoding from a word written out from the spec's
encoding, the spec's vectors (95_test_vectors.md) one step each, and a witness for the hypotheses of every statement that
has some. -/

namespace Sys2Proof.Tests

open Sys2Proof Sys2Proof.Machine

/-! Helpers. -/

/-- A bit string written as digits, first bit leftmost (R14). -/
def bits (ds : List Nat) : Bits := ds.map fun d => d == 1

/-- The default configuration of 95_test_vectors.md. -/
def cfgT : Cfg :=
  { L := 4, tolNum := 1, tolDen := 4, K := 3, inv := false, keepPreamble := false, bufCapacity := none, cntW := none }

/-- A state as 95_test_vectors.md writes it: (state, last, sampCount, preambCount, buffer). -/
def st5 (q : LockState) (last : Nat) (c p : Nat) (buf : List Nat) : SymSync :=
  { state := q, last := last == 1, sampCount := c, preambCount := p, buffer := bits buf, ovf := false }

/-- An instance with that record and configuration. -/
def mk (cfg : Cfg) (st : SymSync) : State := { State.reset with cfg := cfg, st := st }

abbrev U := LockState.unlocked
abbrev L := LockState.locked

/-- The next state, when there is one. -/
def nextOf : Host.Outcome State Fault Refusal → Option State
  | .next t => some t
  | .fault _ => none
  | .refused _ => none

/-- The record and the result after an operation. -/
def after (i : Instr) (s : State) : Option (SymSync × Output) := (nextOf (exec i s)).map fun t => (t.st, t.result)

/-- The result of an operation. -/
def resultOf (i : Instr) (s : State) : Option Output := (nextOf (exec i s)).map fun t => t.result

/-- The batch of 95_test_vectors.md V32. -/
def idleBatch : Bits := (List.replicate 16 idleBits).flatten

def idleString : Bits := syncBits ++ idleBatch

/-- The bit string of program P4. -/
def p4 : Bits :=
  syncBits ++ bitsOf 32 0x02468000 ++ bitsOf 32 0x89960000 ++ syncBits ++ (List.replicate 13 idleBits).flatten ++
    bitsOf 32 0x80000800 ++ bitsOf 32 0x00084800 ++ idleBits

/-! Well-formedness: an ill-formed term for each check. -/

theorem wf_refuses_the_address_of_idle : (Instr.address 0x3D44E 0 0x0CB 1).wf = false := by decide
theorem wf_admits_its_neighbour : (Instr.address 0x3D44E 0 0x0CB 0).wf = true := by decide
theorem wf_refuses_a_window_outside : (Instr.syncMatch (bits [0, 1, 1]) 0).wf = false := by decide
theorem wf_refuses_a_batch_without_occurrence : (Instr.batch idleBits 0).wf = false := by decide
theorem wf_refuses_a_short_batch : (Instr.slice idleBits).wf = false := by decide
theorem wf_refuses_the_address_of_idle_in_a_sequence :
    (Instr.assemble [.idle, .address 0x3D44E 0 0x0CB 1]).wf = false := by decide

/-! Decoding, each word written out from the spec. -/

/-- R62. -/
theorem decodes_sync :
    decode (offerOf .window 0 (bits [0,1,1,1,1,1,0,0,1,1,0,1,0,0,1,0,0,0,0,1,0,1,0,1,1,1,0,1,1,0,0,0])) =
      .ok .sync := by decide
/-- R63. -/
theorem decodes_idle :
    decode (offerOf .codeword 0 (bits [0,1,1,1,1,0,1,0,1,0,0,0,1,0,0,1,1,1,0,0,0,0,0,1,1,0,0,1,0,1,1,1])) =
      .ok .idle := by decide
/-- R139's example: address 0x1234, function 3. -/
theorem decodes_address :
    decode (offerOf .codeword 0
      (bits ([0] ++ [0,0,0,0,0,1,0,0,1,0,0,0,1,1,0,1,0,0] ++ [1,1] ++ [0,0,0,0,0,0,0,0,0,0] ++ [0]))) =
      .ok (.address 0x1234 3 0 0) := by decide
/-- Every field of an Address at a value of its own (V30c). -/
theorem decodes_address_fields :
    decode (offerOf .codeword 0
      (bits ([0] ++ [1,0,1,0,1,0,1,0,1,0,1,0,1,0,1,0,1,0] ++ [0,1] ++ [1,0,1,0,1,0,1,0,1,0] ++ [1]))) =
      .ok (.address 0x2AAAA 1 0x2AA 1) := by decide
/-- R140's example: payload 0x132C0. -/
theorem decodes_message :
    decode (offerOf .codeword 0
      (bits ([1] ++ [0,0,0,1,0,0,1,1,0,0,1,0,1,1,0,0,0,0,0,0] ++ [0,0,0,0,0,0,0,0,0,0] ++ [0]))) =
      .ok (.message 0x132C0 0 0) := by decide
/-- V29c. -/
theorem decodes_message_fields :
    decode (offerOf .codeword 0
      (bits ([1] ++ [0,0,0,0,0,0,0,0,0,0,0,0,0,0,0,0,0,0,0,0] ++ [0,1,0,1,0,1,0,1,0,1] ++ [1]))) =
      .ok (.message 0 0x155 1) := by decide
/-- R192: `rst` high. -/
theorem decodes_reset : decode { rst := true, op := none, fin := false, stall := false } = .ok .reset := by decide
/-- R61: one bit. -/
theorem decodes_sample : decode (offerOf .sample 0 (bits [1])) = .ok (.addSample true) := by decide
theorem decodes_uSame : decode (offerOf .uSame 0 (bits [1])) = .ok (.uSame true) := by decide
theorem decodes_uEdgeOk : decode (offerOf .uEdgeOk 0 (bits [1])) = .ok (.uEdgeOk true) := by decide
theorem decodes_uEdgeBad : decode (offerOf .uEdgeBad 0 (bits [0])) = .ok (.uEdgeBad false) := by decide
theorem decodes_uLock : decode (offerOf .uLock 0 (bits [1])) = .ok (.uLock true) := by decide
theorem decodes_lMid : decode (offerOf .lMid 0 (bits [0])) = .ok (.lMid false) := by decide
theorem decodes_lSame : decode (offerOf .lSame 0 (bits [1])) = .ok (.lSame true) := by decide
theorem decodes_lEdgeKeep : decode (offerOf .lEdgeKeep 0 (bits [1])) = .ok (.lEdgeKeep true) := by decide
theorem decodes_lEdgeLose : decode (offerOf .lEdgeLose 0 (bits [0])) = .ok (.lEdgeLose false) := by decide
/-- R192: `s_end`. -/
theorem decodes_endStream : decode { rst := false, op := none, fin := true, stall := false } = .ok .endStream := by decide
/-- R67: handed over whole. -/
theorem decodes_decode : decode (offerOf .decode 0 (bits [0,1,1,0,1])) = .ok (.decode (bits [0,1,1,0,1])) := by decide
theorem decodes_syncMatch : decode (offerOf .syncMatch 1 (bits [1] ++ syncBits)) =
    .ok (.syncMatch (bits [1] ++ syncBits) 1) := by decide
theorem decodes_batch : decode (offerOf .batch 1 (bits [1] ++ syncBits)) = .ok (.batch (bits [1] ++ syncBits) 1) := by decide
theorem decodes_slice : decode (offerOf .slice 0 idleBatch) = .ok (.slice idleBatch) := by decide +kernel
/-- R42: `cw[0]` is `raw[31]`. -/
theorem decodes_classify : decode (offerOf .classify 0 (bits ([1] ++ List.replicate 31 0))) =
    .ok (.classify 0x80000000) := by decide
/-- Two CWREC records (R79, program P2): `0x1_02469800`, `0x2_89960000`. -/
theorem decodes_assemble :
    decode (offerOf .assemble 0 (bits [0,1] ++ bitsOf 32 0x02469800 ++ bits [1,0] ++ bitsOf 32 0x89960000)) =
      .ok (.assemble [.address 0x1234 3 0 0, .message 0x132C0 0 0]) := by decide +kernel
theorem decodes_septet : decode (offerOf .septet 0 (bits [0,0,0,1,0,0,1])) = .ok (.septet (bits [0,0,0,1,0,0,1])) := by decide
theorem decodes_format :
    decode (offerOf .format 0 (bits ([1] ++ [0,0,0,0,0,1,0,0,1,0,0,0,1,1,0,1,0,0] ++ [1,0,0,1,0,0,0]))) =
      .ok (.format (some 0x1234) [72]) := by decide

/-- U11: a record of kind 3 is refused by name. -/
theorem decode_refuses_kind3 :
    decode (offerOf .assemble 0 (bits [1,1] ++ bitsOf 32 0)) = .error .recordKind3 := by decide +kernel
/-- R194 e: RESET before the sample. -/
theorem decode_takes_reset_first :
    decode { rst := true, op := some { sel := .sample, index := 0, bits := [true] }, fin := true, stall := false } =
      .ok .reset := by decide

/-- The pattern rows as table words (R84). -/
theorem table_words :
    decodeTableWord 32 0x7CD215D8 = some .sync ∧ decodeTableWord 32 0x7A89C197 = some .idle ∧
    decodeTableWord 32 0 = some (.address 0 0 0 0) ∧ decodeTableWord 32 0x80000000 = some (.message 0 0 0) := by decide

/-- The first step after reset runs the placed word. -/
theorem step_runs_a_placed_word :
    (nextOf (step (State.reset.withFetchWord 32 0x80000000))).map (fun t => t.result) =
      some (.codeword (.message 0 0 0)) := by decide

/-! SYMSYNC: 95_test_vectors.md 2.1, 2.2. -/

theorem test_thresholds :
    (lo cfgT, hi cfgT, half cfgT) = (3, 5, 2) ∧
    (lo { cfgT with L := 8, tolDen := 10 }, hi { cfgT with L := 8, tolDen := 10 }) = (8, 8) ∧
    (lo { cfgT with L := 100, tolNum := 3, tolDen := 20 }, hi { cfgT with L := 100, tolNum := 3, tolDen := 20 }) = (85, 115) ∧
    (lo { cfgT with L := 2, tolDen := 2 }, hi { cfgT with L := 2, tolDen := 2 }) = (1, 3) := by decide

/-- V1. -/
theorem test_uSame : after (.uSame true) (mk cfgT (st5 U 1 1 0 [])) = some (st5 U 1 2 0 [], .emission none) := by decide
/-- V2: lower limit. -/
theorem test_uEdgeOk_low : after (.uEdgeOk false) (mk cfgT (st5 U 1 3 1 [0])) = some (st5 U 0 0 2 [0,1], .emission none) := by
  decide
/-- V3: upper limit. -/
theorem test_uEdgeOk_high : after (.addSample false) (mk cfgT (st5 U 1 5 1 [0])) = some (st5 U 0 0 2 [0,1], .emission none) := by
  decide
/-- V4. -/
theorem test_uEdgeBad_low : after (.uEdgeBad false) (mk cfgT (st5 U 1 2 2 [0,1])) = some (st5 U 0 0 0 [], .emission none) := by
  decide
/-- V5. -/
theorem test_uEdgeBad_high : after (.uEdgeBad false) (mk cfgT (st5 U 1 6 2 [0,1])) = some (st5 U 0 0 0 [], .emission none) := by
  decide
/-- V6. -/
theorem test_uLock : after (.uLock false) (mk cfgT (st5 U 1 3 2 [1,0])) = some (st5 L 0 0 0 [], .emission none) := by decide
/-- V6k. -/
theorem test_uLock_keep : after (.uLock false) (mk { cfgT with keepPreamble := true } (st5 U 1 3 2 [1,0])) =
    some (st5 L 0 0 0 [1,0,1], .emission none) := by decide
/-- V7a: the bit appended on an edge is the new level. -/
theorem test_lMid_on_an_edge : after (.lMid false) (mk cfgT (st5 L 1 6 0 [0,1])) = some (st5 L 0 0 0 [0,1,0], .emission none) := by
  decide
/-- V9e. -/
theorem test_lMid_overflow : after (.lMid true) (mk { cfgT with bufCapacity := some 3 } (st5 L 1 2 0 [0,1,0])) =
    some ({ st5 L 1 3 0 [0,1,0] with ovf := true }, .emission none) := by decide
/-- V7. -/
theorem test_lSame : after (.lSame true) (mk cfgT (st5 L 1 2 0 [0])) = some (st5 L 1 3 0 [0,1], .emission none) := by decide
/-- V7b. -/
theorem test_lSame_no_midpoint : after (.lSame false) (mk cfgT (st5 L 0 0 0 [])) = some (st5 L 0 1 0 [], .emission none) := by
  decide
/-- V8. -/
theorem test_lEdgeKeep : after (.lEdgeKeep false) (mk cfgT (st5 L 1 3 0 [0,1])) = some (st5 L 0 0 0 [0,1], .emission none) := by
  decide
/-- V21. -/
theorem test_lEdgeLose : after (.lEdgeLose false) (mk cfgT (st5 L 1 2 0 [0,1])) =
    some (st5 U 0 0 0 [], .emission (some (bits [0,1,0]))) := by decide
/-- V22: an empty emission. -/
theorem test_lEdgeLose_empty : after (.addSample true) (mk cfgT (st5 L 0 0 0 [])) =
    some (st5 U 1 0 0 [], .emission (some [])) := by decide
/-- V9: polarity. -/
theorem test_addSample_inverted : after (.addSample false) (mk { cfgT with inv := true } (st5 U 0 2 0 [])) =
    some (st5 U 1 0 0 [], .emission none) := by decide
/-- V9f: ENDSTREAM writes nothing. -/
theorem test_endStream : after .endStream (mk cfgT (st5 L 1 2 0 [0,1,1,0])) = some (st5 L 1 2 0 [0,1,1,0], .none) := by decide
/-- V9g. -/
theorem test_reset : after .reset (mk cfgT (st5 L 1 2 0 [0,1,1,0])) = some (st5 U 0 0 0 [], .none) := by decide
/-- U9: a sample after ENDSTREAM. -/
theorem test_sample_after_end :
    exec (.addSample true) { mk cfgT (st5 L 1 2 0 []) with ended := true } = .refused .streamEnded := by rfl

/-! FRAMEDEC: 95_test_vectors.md 2.4, 2.5. -/

/-- V11c, V12c, V13c, V10c. -/
theorem test_classify :
    resultOf (.classify 0x7A89C197) State.reset = some (.codeword .idle) ∧
    resultOf (.classify 0x7A89C196) State.reset = some (.codeword (.address 0x3D44E 0 0x0CB 0)) ∧
    resultOf (.classify 0xFA89C197) State.reset = some (.codeword (.message 0xF5138 0x0CB 1)) ∧
    resultOf (.classify 0x7CD215D8) State.reset = some (.codeword (.address 0x3E690 2 0x2EC 0)) := by decide
/-- V16c, V15c. -/
theorem test_classify_maxima :
    resultOf (.classify 0x7FFFFFFF) State.reset = some (.codeword (.address 0x3FFFF 3 0x3FF 1)) ∧
    resultOf (.classify 0xFFFFFFFF) State.reset = some (.codeword (.message 0xFFFFF 0x3FF 1)) := by decide
/-- R132's example: no match at 0, a match at 1. -/
theorem test_syncMatch :
    resultOf (.syncMatch (bits [1] ++ syncBits) 0) State.reset = some (.matched false) ∧
    resultOf (.syncMatch (bits [1] ++ syncBits) 1) State.reset = some (.matched true) := by decide
/-- R133's example: 511 bits are not enough, 512 are. -/
theorem test_batch :
    resultOf (.batch (idleString.take 543) 0) State.reset = some (.batch none) ∧
    resultOf (.batch idleString 0) State.reset = some (.batch (some idleBatch)) := by decide +kernel
/-- R135's example. -/
theorem test_slice : resultOf (.slice (bitsOf 32 0x02469800 ++ (List.replicate 15 idleBits).flatten)) State.reset =
    some (.slices (0x02469800#32 :: List.replicate 15 0x7A89C197#32)) := by decide +kernel
/-- V33. -/
theorem test_decode_at_an_odd_offset :
    resultOf (.decode (bits [1,0,1,0,1,0,1] ++ idleString ++ bits [1,0,1])) State.reset =
      some (.codewords (List.replicate 16 .idle)) := by decide +kernel
/-- Program P4. -/
theorem test_decode_overlapping : resultOf (.decode p4) State.reset = some (.codewords
    ([.address 0x1234 0 0 0, .message 0x132C0 0 0, .address 0x3E690 2 0x2EC 0] ++ List.replicate 26 .idle ++
      [.message 1 0 0, .address 0x42 1 0 0, .idle])) := by decide +kernel

/-! MSGASM: 95_test_vectors.md 2.6. -/

/-- V46: two payloads give five characters. -/
theorem test_assemble : resultOf (.assemble [.address 0x1234 0 0 0, .message 0x132C0 0 0, .message 0 0 0]) State.reset =
    some (.line [49, 50, 51, 52, 32, 45, 32, 72, 105, 0, 0, 0]) := by decide
/-- V47: the last Address wins. -/
theorem test_assemble_last_address :
    render (assembleLine [.address 1 0 0 0, .message 0x132C0 0 0, .address 0x3FFFF 0 0 0]) = "3ffff - Hi".toList := by decide
/-- R164's example. -/
theorem test_septet : resultOf (.septet (bits [0,0,0,1,0,0,1, 1,0,0,1,0,1,1, 0,0,0,0,0,0])) State.reset =
    some (.text [72, 105]) := by decide
/-- V43 and a bare text. -/
theorem test_format :
    resultOf (.format (some 0) []) State.reset = some (.line [48, 32, 45, 32]) ∧
    resultOf (.format none [72, 105]) State.reset = some (.line [72, 105]) := by decide

/-! Steps. -/

/-- Back-pressure: with an emission pending, the step decodes it and leaves the offered sample. -/
theorem test_step_decodes_before_the_next_sample :
    (nextOf (step { mk cfgT (st5 U 1 0 0 []) with stage := .decode [], source := [sampleOffer true] })).map
      (fun t => (t.result, t.stage, t.source)) =
    some (.codewords [], .deliver [] [], [sampleOffer true]) := by decide
/-- R193: a stalled consumer takes nothing and the codeword stays to be delivered. -/
theorem test_step_keeps_a_stalled_codeword :
    (nextOf (step { mk cfgT (st5 U 1 0 0 []) with
      stage := .deliver [.idle] [.idle], source := [{ sampleOffer true with stall := true }] })).map
      (fun t => (t.result, t.stage, t.source)) =
    some (.none, .deliver [.idle] [.idle], [sampleOffer true]) := by decide
/-- RESET abandons a delivery (R211). -/
theorem test_reset_abandons_a_delivery :
    (nextOf (step { mk cfgT (st5 U 1 0 0 []) with stage := .deliver [.idle] [.idle], source := [resetOffer] })).map
      (fun t => (t.stage, t.source)) = some (.idle, []) := by decide

/-! Witnesses: for each statement with hypotheses, a state and operands that meet them all. -/

theorem witness_DecodeReadsBackEveryEncoding :
    (Instr.batch syncBits 0).wf = true ∧ (Instr.address 0x3FFFF 3 0x3FF 1).wf = true := by decide
theorem witness_DecodedOperationsAreWellFormed : decode (offerOf .batch 0 syncBits) = .ok (.batch syncBits 0) := by decide
theorem witness_ClassifyReadsBackEveryCodeword :
    1023 < 2 ^ 10 ∧ Codeword.address 0x3D44E 0 0x0CB 0 ≠ .address 0x3D44E 0 0x0CB 1 := by decide
theorem witness_ClassifyExtractsTheFields :
    idleBits.length = 32 ∧ (bitsOf 32 0x7A89C196).length = 32 ∧ (bitsOf 32 0x80000000).length = 32 := by decide
/-- Two occurrences exactly 31 apart, sharing one 0 bit (R134 a). -/
theorem witness_SyncWordOccurrencesAreThirtyOneApart :
    0 < 31 ∧ occursAt (syncBits ++ syncBits.tail) 0 ∧ occursAt (syncBits ++ syncBits.tail) 31 := by decide
theorem witness_SyncMatchComparesAllBits : 0 + 32 ≤ syncBits.length ∧ (syncBits.take 31).length < 0 + 32 := by decide
theorem witness_BatchTakesAllOrSkips :
    0 + 544 ≤ idleString.length ∧ (idleString.take 543).length < 0 + 544 := by decide +kernel
theorem witness_SliceCutsSixteenCodewords : idleBatch.length = 512 ∧ (idleBatch.take 511).length ≠ 512 := by decide +kernel
theorem witness_DecodeCountsSixteenPerOccurrence :
    544 ≤ idleString.length ∧ (idleString.take 543).length < 544 := by decide +kernel
theorem witness_EncodedBatchDecodesToItsCodewords :
    (List.replicate 16 Codeword.idle).length = 16 ∧
    (∀ x ∈ List.replicate 16 Codeword.idle, x ≠ .address 0x3D44E 0 0x0CB 1) ∧
    (∀ i, 0 < i → i + 544 ≤ 544 + 1 →
      ¬ occursAt (syncBits ++ encAll (List.replicate 16 .idle) ++ [true]) i) := by
  refine ⟨rfl, by decide, fun i h1 h2 => ?_⟩
  have : i = 1 := by omega
  subst this
  decide +kernel
theorem witness_OverlappingOccurrenceIsParsedAgain :
    2 < 16 ∧ occursAt p4 0 ∧ occursAt p4 (0 + 32 + 32 * 2) ∧ 0 + 32 + 32 * 2 + 544 ≤ p4.length := by decide +kernel
theorem witness_SeptetsAreReversedSevenBitGroups : 0 < (bits [0,0,0,1,0,0,1]).length / 7 := by decide
/-- Also FiniteCounterIsIndistinguishable and ResetSetsEveryField. -/
theorem witness_admitted : admitted cfgT = true ∧ admitted (mk cfgT resetSync).cfg = true := by decide
/-- Each bound of R11 missed by one, and a capacity just below `K`. -/
theorem witness_OnlyAdmittedConfigurationsRun :
    admitted { cfgT with L := 0 } = false ∧ admitted { cfgT with tolNum := 4 } = false ∧
    admitted { cfgT with K := 0 } = false ∧ admitted { cfgT with bufCapacity := some 2 } = false ∧
    admitted { cfgT with bufCapacity := some 3 } = true := by decide

/-- A state in which U_SAME's statement applies. -/
theorem witness_USameCountsTheSample :
    let s := mk cfgT (st5 U 1 1 0 [])
    Accepting s ∧ s.st.state = .unlocked ∧ (true ^^ s.cfg.inv) = s.st.last := by decide
/-- Both limits of the tolerance. -/
theorem witness_UEdgeOkCountsThePreambleRun :
    ∀ c ∈ [3, 5],
      let s := mk cfgT (st5 U 1 c 1 [0])
      Accepting s ∧ s.st.state = .unlocked ∧ (false ^^ s.cfg.inv) ≠ s.st.last ∧ lo s.cfg ≤ s.st.sampCount ∧
        s.st.sampCount ≤ hi s.cfg ∧ bufFull s.cfg s.st = false ∧ s.st.preambCount + 1 ≠ s.cfg.K := by decide
/-- One outside each limit. -/
theorem witness_UEdgeBadRestartsThePreamble :
    ∀ c ∈ [2, 6],
      let s := mk cfgT (st5 U 1 c 1 [0])
      Accepting s ∧ s.st.state = .unlocked ∧ (false ^^ s.cfg.inv) ≠ s.st.last ∧
        (s.st.sampCount < lo s.cfg ∨ hi s.cfg < s.st.sampCount) := by decide
theorem witness_ULockAcquiresLock :
    let s := mk cfgT (st5 U 1 3 2 [1,0])
    Accepting s ∧ s.st.state = .unlocked ∧ (false ^^ s.cfg.inv) ≠ s.st.last ∧ lo s.cfg ≤ s.st.sampCount ∧
      s.st.sampCount ≤ hi s.cfg ∧ bufFull s.cfg s.st = false ∧ s.st.preambCount + 1 = s.cfg.K := by decide
/-- At a midpoint (2) and beside it (1). -/
theorem witness_LSameCountsAfterTheMidpoint :
    ∀ c ∈ [1, 2],
      let s := mk cfgT (st5 L 1 c 0 [0])
      Accepting s ∧ s.st.state = .locked ∧ (true ^^ s.cfg.inv) = s.st.last ∧
        (s.st.sampCount % s.cfg.L = s.cfg.L / 2 → bufFull s.cfg s.st = false) := by decide
/-- A full buffer beside the midpoint. -/
theorem witness_LSameCountsAfterTheMidpoint_full_off_the_midpoint :
    let s := mk { cfgT with bufCapacity := some 3 } (st5 L 1 1 0 [0,1,0])
    Accepting s ∧ bufFull s.cfg s.st = true ∧ s.st.state = .locked ∧ (true ^^ s.cfg.inv) = s.st.last ∧
      (s.st.sampCount % s.cfg.L = s.cfg.L / 2 → bufFull s.cfg s.st = false) := by decide
/-- At the limit (3), and at a midpoint (6). -/
theorem witness_LEdgeKeepRestartsTheCounter :
    ∀ c ∈ [3, 6],
      let s := mk cfgT (st5 L 1 c 0 [0])
      Accepting s ∧ s.st.state = .locked ∧ (false ^^ s.cfg.inv) ≠ s.st.last ∧ lo s.cfg ≤ s.st.sampCount ∧
        (s.st.sampCount % s.cfg.L = s.cfg.L / 2 → bufFull s.cfg s.st = false) := by decide
theorem witness_LEdgeKeepRestartsTheCounter_full_off_the_midpoint :
    let s := mk { cfgT with bufCapacity := some 3 } (st5 L 1 3 0 [0,1,0])
    Accepting s ∧ bufFull s.cfg s.st = true ∧ s.st.state = .locked ∧ (false ^^ s.cfg.inv) ≠ s.st.last ∧ lo s.cfg ≤ s.st.sampCount ∧
      (s.st.sampCount % s.cfg.L = s.cfg.L / 2 → bufFull s.cfg s.st = false) := by decide
/-- Just below the limit, at a midpoint (2), and at 0. -/
theorem witness_LEdgeLoseEmitsTheBuffer :
    ∀ c ∈ [0, 2],
      let s := mk cfgT (st5 L 1 c 0 [0])
      Accepting s ∧ s.st.state = .locked ∧ (false ^^ s.cfg.inv) ≠ s.st.last ∧ s.st.sampCount < lo s.cfg ∧
        (s.st.sampCount % s.cfg.L = s.cfg.L / 2 → bufFull s.cfg s.st = false) := by decide
theorem witness_LEdgeLoseEmitsTheBuffer_full_off_the_midpoint :
    let s := mk { cfgT with bufCapacity := some 3 } (st5 L 1 1 0 [0,1,0])
    Accepting s ∧ bufFull s.cfg s.st = true ∧ s.st.state = .locked ∧ (false ^^ s.cfg.inv) ≠ s.st.last ∧ s.st.sampCount < lo s.cfg ∧
      (s.st.sampCount % s.cfg.L = s.cfg.L / 2 → bufFull s.cfg s.st = false) := by decide
/-- Also the clause on a call that stays Locked: without an edge it does. -/
theorem witness_MidpointOnAFullBufferOverflows :
    let s := mk { cfgT with bufCapacity := some 3 } (st5 L 1 2 0 [0,1,0])
    Accepting s ∧ s.st.state = .locked ∧ s.st.sampCount % s.cfg.L = s.cfg.L / 2 ∧ bufFull s.cfg s.st = true := by decide
theorem witness_OverflowedInstanceFaultsUntilReset :
    let s := mk { cfgT with bufCapacity := some 3 } { st5 L 1 3 0 [0,1,0] with ovf := true }
    admitted s.cfg = true ∧ s.ended = false ∧ s.st.ovf = true := by decide
theorem witness_EndStreamEndsTheSamples :
    let s := { mk cfgT (st5 L 1 2 0 [0]) with ended := true }
    admitted s.cfg = true ∧ s.ended = true := by decide
/-- Also AddSampleCompletesAndStoresTheLevel. For each arm a state in which it is selected, and hence the others are not. -/
theorem witness_EachArmRunsExactlyWhenSelected :
    (∀ st ∈ [st5 U 1 1 0 [], st5 U 0 3 0 [], st5 U 0 2 0 [], st5 U 0 3 2 [1,0], st5 L 1 2 0 [], st5 L 1 1 0 [],
      st5 L 0 3 0 [], st5 L 0 2 0 []], Accepting (mk cfgT st)) := by decide
/-- An emission and its absence. -/
theorem witness_EmissionExactlyOnLockLoss :
    after (.addSample true) (mk cfgT (st5 L 0 1 0 [0,1,1,0,1])) =
      some (st5 U 1 0 0 [], .emission (some (bits [0,1,1,0,1]))) ∧
    after (.addSample true) (mk cfgT (st5 L 0 3 0 [0])) = some (st5 L 1 0 0 [0], .emission none) := by decide

/-- A state of the invariant from which a step answers. -/
theorem witness_EveryStepKeepsTheInvariant :
    Inv (mk cfgT (st5 U 1 3 1 [0])) ∧ step (mk cfgT (st5 U 1 3 1 [0])) = .next (mk cfgT (st5 U 1 3 1 [0])) := by
  refine ⟨⟨by decide, fun _ => ⟨by decide, by decide, by decide, ?_⟩, ?_, rfl, trivial⟩, rfl⟩
  · intro b hb
    cases hb
    decide
  · intro h
    cases h
theorem witness_UnlockedCallNeverOverflows :
    Inv (mk cfgT (st5 U 1 3 1 [0])) ∧ (mk cfgT (st5 U 1 3 1 [0])).st.state = .unlocked ∧
      after (.addSample false) (mk cfgT (st5 U 1 3 1 [0])) = some (st5 U 0 0 2 [0,1], .emission none) :=
  ⟨witness_EveryStepKeepsTheInvariant.1, rfl, by decide⟩
/-- Also UnlockedBufferIsNeverObserved. A stream of one lock session, with an unbounded buffer and with a finite one. -/
theorem witness_EmissionsNeverExceedAcquisitions :
    ∀ cap ∈ [none, some 3],
      let s := mk { cfgT with K := 1, bufCapacity := cap } (st5 U 0 3 0 [])
      Accepting s ∧ s.cfg.keepPreamble = false ∧ s.st.state = .unlocked ∧
        (feed (bits [1, 0]) s).map (fun tr => (tr.final.st.ovf, tr.emissions)) = some (false, [[]]) := by decide
/-- `L * tol = 1`, the least margin; an odd and an even `K`. -/
theorem witness_PerfectPreambleLocksOnTheNextEdge :
    ∀ k ∈ [3, 4],
      let s := mk { cfgT with K := k } resetSync
      Accepting s ∧ s.st = resetSync ∧ s.cfg.tolDen ≤ s.cfg.L * s.cfg.tolNum := by decide
/-- R217's `L = 8`, `tol = 1/10`; `K = 2` and 3 for the first clause, 1 for the second. -/
theorem witness_PerfectSignalNeverLocksWithoutMargin :
    ∀ k ∈ [1, 2, 3],
      let s := mk { cfgT with L := 8, tolDen := 10, K := k } resetSync
      Accepting s ∧ s.st = resetSync ∧ s.cfg.L * s.cfg.tolNum < s.cfg.tolDen := by decide
theorem witness_HeldLevelKeepsLock :
    Accepting (mk cfgT (st5 L 0 2 0 [1])) ∧
      let s := mk { cfgT with bufCapacity := some 3 } (st5 L 0 2 0 [1])
      Accepting s ∧ s.st.state = .locked ∧
        [1].length + (List.range 5).countP (fun k => midpoint s.cfg (s.st.sampCount + k)) = 3 := by decide
/-- `r - 1` just below `h` and at `h`, and both ends of the window for `m = 1`. -/
theorem witness_RunHasOneMidpointPerSymbol :
    1 ≤ cfgT.L ∧ 2 - 1 < half cfgT ∧ half cfgT ≤ 3 - 1 ∧
      (3 : ℤ) = 1 * cfgT.L + (-1) ∧ -(cfgT.L - 1 - half cfgT : ℤ) ≤ -1 ∧
      (6 : ℤ) = 1 * cfgT.L + 2 ∧ (2 : ℤ) ≤ half cfgT := by decide
theorem witness_RunOfSymbolsYieldsItsBits :
    let s := mk { cfgT with bufCapacity := some 3 } (st5 L 0 0 0 [0, 1])
    Accepting s ∧ s.st.state = .locked ∧ s.st.sampCount = 0 ∧ s.st.buffer.length + 1 ≤ 3 ∧ 3 ≤ s.cfg.L ∧
      lo s.cfg ≤ 1 * s.cfg.L - 1 := by decide
/-- Two samples, less than `4 * 3/4`, and not past the midpoint, with a full buffer. -/
theorem witness_ShortRunEmitsOnceAndUnlocks :
    let s := mk { cfgT with bufCapacity := some 3 } (st5 L 0 0 0 [0, 1, 0])
    Accepting s ∧ s.st.state = .locked ∧ s.st.sampCount = 0 ∧ (s.cfg.L / 2 < 2 → bufFull s.cfg s.st = false) ∧
      ((2 : ℕ) : ℚ) < s.cfg.L * (1 - (s.cfg.tolNum : ℚ) / s.cfg.tolDen) := by
  refine ⟨by decide, rfl, rfl, by decide, ?_⟩
  norm_num [mk, cfgT]
/-- Three samples, less than `4 * 1` and past the midpoint, with room for one bit. -/
theorem witness_ShortRunEmitsOnceAndUnlocks_with_midpoint :
    let s := mk { cfgT with tolNum := 0, bufCapacity := some 3 } (st5 L 0 0 0 [0, 1])
    Accepting s ∧ s.st.state = .locked ∧ s.st.sampCount = 0 ∧ s.cfg.L / 2 < 3 ∧ bufFull s.cfg s.st = false ∧
      ((3 : ℕ) : ℚ) < s.cfg.L * (1 - (s.cfg.tolNum : ℚ) / s.cfg.tolDen) := by
  refine ⟨by decide, rfl, rfl, by decide, by decide, ?_⟩
  norm_num [mk, cfgT]
theorem witness_StepRunsTheDecodedOperation :
    let s := { mk cfgT (st5 U 0 0 0 []) with source := [sampleOffer true] }
    admitted s.cfg = true ∧ s.stage = .idle ∧ s.source = sampleOffer true :: [] ∧
      decode (sampleOffer true) = .ok (.addSample true) := by decide
/-- With an emission pending: RESET alone, with a sample, and with a sample and the end. -/
theorem witness_ResetWinsOverASample :
    let sample : Slot := { sel := .sample, index := 0, bits := [true] }
    ∀ p ∈ [(none, false), (some sample, false), (some sample, true)],
      let o : Offer := { rst := true, op := p.1, fin := p.2, stall := true }
      let s := { mk cfgT (st5 L 0 2 0 [1]) with stage := .decode [true], source := [o] }
      admitted s.cfg = true ∧ s.source = o :: [] := by decide
theorem witness_SampleGoesBeforeTheEnd :
    let o : Offer := { rst := false, op := some { sel := .sample, index := 0, bits := [true] }, fin := true, stall := false }
    let s := { mk cfgT (st5 L 0 2 0 [1]) with source := [o] }
    Accepting s ∧ s.stage = .idle ∧ s.source = o :: [] := by decide
/-- In each of the stages; the offered sample waits. -/
theorem witness_NoSampleIsTakenDuringDelivery :
    ∀ g ∈ [Stage.decode [], .deliver [] [], .deliver [.idle] [.idle], .assemble []],
      let s := { mk cfgT (st5 U 0 2 0 []) with stage := g, source := [sampleOffer true] }
      admitted s.cfg = true ∧ stageIdle s.stage = false ∧ resetOffered s.source = false := by decide
/-- With codewords to deliver, a consumer that stalls and a sample that waits; and with nothing offered. -/
theorem witness_EmissionIsDeliveredInOrder :
    let stall : Offer := { rst := false, op := none, fin := false, stall := true }
    ∀ src ∈ [[stall, stall, sampleOffer true], []],
      let s := { mk cfgT (st5 U 0 0 0 []) with stage := .decode idleString, source := src }
      admitted s.cfg = true ∧ s.stage = .decode idleString ∧ (∀ o ∈ s.source, o.rst = false) ∧
        15 < (decodeStream idleString).length := by
  decide +kernel
theorem witness_LockLossStartsDecoding :
    let s := { mk cfgT (st5 L 0 0 0 []) with source := [sampleOffer true] }
    Accepting s ∧ s.stage = .idle ∧ s.source = sampleOffer true :: [] ∧ s.st.state = .locked ∧
      (true ^^ s.cfg.inv) ≠ s.st.last ∧ s.st.sampCount < lo s.cfg ∧
      (s.st.sampCount % s.cfg.L = s.cfg.L / 2 → bufFull s.cfg s.st = false) := by decide
theorem witness_RecordCarriesKindAndRawCodeword : properCodeword (.address 0x1234 3 0 0) = true := by decide
theorem witness_EmissionIsShownBitByBit : 1 < (dbBeats (bits [0, 1])).length ∧ bits [0, 1] ≠ [] := by decide

end Sys2Proof.Tests
end

section
/-! SUPPORT. The scope (00_scope.md): the admitted configurations, the thresholds by what they bound, and what a step does
with the configuration and with the offer at the head of the source. -/

namespace Sys2Proof.Machine

/-! The admitted configurations. -/

theorem admitted_iff {cfg : Cfg} :
    admitted cfg = true ↔
      1 ≤ cfg.L ∧ cfg.tolNum < cfg.tolDen ∧ 1 ≤ cfg.K ∧ ∀ n, cfg.bufCapacity = some n → cfg.K ≤ n := by
  cases hc : cfg.bufCapacity <;> simp [admitted, hc, and_assoc]

/-! The thresholds. Each is known by the counts on its side of it; the rounding of R10 is used here and nowhere else. -/

/-- `LO` is the least count that is not below `L * (1 - tol)`, in natural numbers. -/
theorem lo_le_iff {cfg : Cfg} (hd : 0 < cfg.tolDen) (c : Nat) :
    lo cfg ≤ c ↔ cfg.L * (cfg.tolDen - cfg.tolNum) ≤ cfg.tolDen * c := by
  rw [lo, ← Nat.add_sub_assoc hd, ← Nat.ceilDiv_eq_add_pred_div, ceilDiv_le_iff_le_mul hd]

/-- `HI` is the greatest count that is not above `L * (1 + tol)`, in natural numbers. -/
theorem le_hi_iff {cfg : Cfg} (hd : 0 < cfg.tolDen) (c : Nat) :
    c ≤ hi cfg ↔ c * cfg.tolDen ≤ cfg.L * (cfg.tolDen + cfg.tolNum) := by
  rw [hi, Nat.le_div_iff_mul_le hd]

section Thresholds

variable {cfg : Cfg} (ha : admitted cfg = true)
include ha

theorem tolDen_pos : 0 < cfg.tolDen := by
  obtain ⟨-, htol, -, -⟩ := admitted_iff.mp ha
  omega

theorem one_le_lo : 1 ≤ lo cfg := by
  obtain ⟨hL, htol, -, -⟩ := admitted_iff.mp ha
  have hpos : 0 < cfg.L * (cfg.tolDen - cfg.tolNum) := Nat.mul_pos hL (Nat.sub_pos_of_lt htol)
  have hnot : ¬ lo cfg ≤ 0 := by rw [lo_le_iff (tolDen_pos ha)]; omega
  omega

theorem lo_le_L : lo cfg ≤ cfg.L := by
  rw [lo_le_iff (tolDen_pos ha), Nat.mul_comm cfg.tolDen]
  exact Nat.mul_le_mul_left _ (Nat.sub_le _ _)

theorem L_le_hi : cfg.L ≤ hi cfg := by
  rw [le_hi_iff (tolDen_pos ha)]
  exact Nat.mul_le_mul_left _ (Nat.le_add_right _ _)

theorem hi_lt_two_mul_L : hi cfg < 2 * cfg.L := by
  obtain ⟨hL, htol, -, -⟩ := admitted_iff.mp ha
  have hmul : cfg.L * cfg.tolNum < cfg.L * cfg.tolDen := Nat.mul_lt_mul_of_pos_left htol hL
  rw [← not_le, le_hi_iff (tolDen_pos ha)]
  linarith

/-- `LO` over the rationals (R10). -/
theorem lo_le_iff_rat (c : Nat) :
    lo cfg ≤ c ↔ (cfg.L * (cfg.tolDen - cfg.tolNum) : ℚ) / cfg.tolDen ≤ c := by
  have hd := tolDen_pos ha
  obtain ⟨-, htol, -, -⟩ := admitted_iff.mp ha
  rw [lo_le_iff hd, div_le_iff₀' (Nat.cast_pos.mpr hd), ← Nat.cast_sub htol.le]
  norm_cast

/-- `HI` over the rationals (R10). -/
theorem le_hi_iff_rat (c : Nat) :
    c ≤ hi cfg ↔ (c : ℚ) ≤ (cfg.L * (cfg.tolDen + cfg.tolNum) : ℚ) / cfg.tolDen := by
  have hd := tolDen_pos ha
  rw [le_hi_iff hd, le_div_iff₀ (Nat.cast_pos.mpr hd)]
  norm_cast

theorem lowerBound_nonneg : (0 : ℚ) ≤ (cfg.L * (cfg.tolDen - cfg.tolNum) : ℚ) / cfg.tolDen := by
  obtain ⟨-, htol, -, -⟩ := admitted_iff.mp ha
  have hle : (cfg.tolNum : ℚ) ≤ cfg.tolDen := Nat.cast_le.mpr htol.le
  have hsub := sub_nonneg.mpr hle
  positivity

theorem lo_eq_ceil : (lo cfg : ℤ) = ⌈(cfg.L * (cfg.tolDen - cfg.tolNum) : ℚ) / cfg.tolDen⌉ := by
  have hnat : lo cfg = ⌈(cfg.L * (cfg.tolDen - cfg.tolNum) : ℚ) / cfg.tolDen⌉₊ :=
    eq_of_forall_ge_iff fun c => by rw [lo_le_iff_rat ha, Nat.ceil_le]
  rw [hnat, Int.natCast_ceil_eq_ceil (lowerBound_nonneg ha)]

theorem hi_eq_floor : (hi cfg : ℤ) = ⌊(cfg.L * (cfg.tolDen + cfg.tolNum) : ℚ) / cfg.tolDen⌋ := by
  have hnonneg : (0 : ℚ) ≤ (cfg.L * (cfg.tolDen + cfg.tolNum) : ℚ) / cfg.tolDen := by positivity
  have hnat : hi cfg = ⌊(cfg.L * (cfg.tolDen + cfg.tolNum) : ℚ) / cfg.tolDen⌋₊ :=
    eq_of_forall_le_iff fun c => by rw [le_hi_iff_rat ha, Nat.le_floor_iff hnonneg]
  rw [hnat, Int.natCast_floor_eq_floor hnonneg]

/-- `L * (1 - tol)`, with `tol = TOL_NUM / TOL_DEN`. -/
theorem L_mul_one_sub_tol :
    (cfg.L : ℚ) * (1 - (cfg.tolNum : ℚ) / cfg.tolDen) = (cfg.L * (cfg.tolDen - cfg.tolNum) : ℚ) / cfg.tolDen := by
  have hd : (cfg.tolDen : ℚ) ≠ 0 := Nat.cast_ne_zero.mpr (tolDen_pos ha).ne'
  field_simp

theorem L_mul_one_add_tol :
    (cfg.L : ℚ) * (1 + (cfg.tolNum : ℚ) / cfg.tolDen) = (cfg.L * (cfg.tolDen + cfg.tolNum) : ℚ) / cfg.tolDen := by
  have hd : (cfg.tolDen : ℚ) ≠ 0 := Nat.cast_ne_zero.mpr (tolDen_pos ha).ne'
  field_simp

/-- The tolerance test on the run length in symbols is the test on the count (R10, R107). -/
theorem mem_toleranceInterval_iff (c : Nat) :
    (c : ℚ) / cfg.L ∈ Set.Icc (1 - (cfg.tolNum : ℚ) / cfg.tolDen) (1 + (cfg.tolNum : ℚ) / cfg.tolDen) ↔
      lo cfg ≤ c ∧ c ≤ hi cfg := by
  obtain ⟨hL, -, -, -⟩ := admitted_iff.mp ha
  have hLpos : (0 : ℚ) < cfg.L := Nat.cast_pos.mpr hL
  rw [Set.mem_Icc, le_div_iff₀' hLpos, div_le_iff₀' hLpos, L_mul_one_sub_tol ha, L_mul_one_add_tol ha,
    ← lo_le_iff_rat ha, ← le_hi_iff_rat ha]

/-- The lock-loss test over the rationals is the test on the count (R10, R114). -/
theorem lt_L_mul_one_sub_tol_iff (c : Nat) :
    (c : ℚ) < cfg.L * (1 - (cfg.tolNum : ℚ) / cfg.tolDen) ↔ c < lo cfg := by
  rw [L_mul_one_sub_tol ha, ← not_le, ← lo_le_iff_rat ha, not_le]

end Thresholds

/-! What is refused under a configuration that is not admitted (R188). -/

theorem step_of_not_admitted {s : State} (h : admitted s.cfg = false) : step s = .refused .refuseConfig := by
  simp [step, h]

theorem takeReply_of_not_admitted {s : State} (h : admitted s.cfg = false) (r : Option Reply) :
    takeReply s r = .refused .refuseConfig := by
  simp [takeReply, h]

theorem exec_reset_of_not_admitted {s : State} (h : admitted s.cfg = false) :
    exec .reset s = .refused .refuseConfig := by
  simp [exec, execReset, h]

theorem exec_endStream_of_not_admitted {s : State} (h : admitted s.cfg = false) :
    exec .endStream s = .refused .refuseConfig := by
  simp [exec, execEndStream, h]

theorem exec_addSample_of_not_admitted {s : State} (h : admitted s.cfg = false) (raw : Bool) :
    exec (.addSample raw) s = .refused .refuseConfig := by
  simp [exec, execAddSample, takeReply_of_not_admitted h]

/-! A step that takes what is offered. -/

/-- An empty offer decodes to no operation. -/
theorem decode_of_offerEmpty {o : Offer} (h : offerEmpty o = true) : decode o = .error .nothingOffered := by
  simp only [offerEmpty, Bool.and_eq_true, Bool.not_eq_true', Option.isNone_iff_eq_none] at h
  obtain ⟨⟨hrst, hop⟩, hfin⟩ := h
  simp [decode, hrst, hop, hfin]

theorem offerEmpty_of_decode_ok {o : Offer} {i : Instr} (h : decode o = .ok i) : offerEmpty o = false := by
  cases he : offerEmpty o with
  | false => rfl
  | true => rw [decode_of_offerEmpty he] at h; cases h

/-- With no downstream work a step runs what is offered. -/
theorem step_of_stage_idle {s : State} (ha : admitted s.cfg = true) (hs : s.stage = .idle) :
    step s = runOffered s := by
  simp [step, ha, hs, stageIdle]

theorem runOffered_of_decode_ok {s : State} {o : Offer} {rest : List Offer} {i : Instr}
    (hs : s.source = o :: rest) (hd : decode o = .ok i) :
    runOffered s = settle (exec i { s with source := takeOffer (o :: rest) }) := by
  simp [runOffered, hs, hd, offerEmpty_of_decode_ok hd]

end Sys2Proof.Machine
end

section
/-! PROOFS. The statements of 00_scope.md. -/

namespace Sys2Proof.Proofs

open Sys2Proof Sys2Proof.Machine

/-- Settles O23: the counts below and above each threshold, over the rationals, determine the rounding and both tests. -/
theorem thresholdsBracketTheToleranceInterval : Obligations.ThresholdsBracketTheToleranceInterval :=
  fun _ ha =>
    ⟨lo_eq_ceil ha, hi_eq_floor ha, fun c => ⟨mem_toleranceInterval_iff ha c, lt_L_mul_one_sub_tol_iff ha c⟩⟩

/-- Settles O24: admission unfolded once, the bounds from what the thresholds bound, and the refusal of each entry point. -/
theorem onlyAdmittedConfigurationsRun : Obligations.OnlyAdmittedConfigurationsRun := by
  refine fun s => ⟨admitted_iff, fun ha => ?bounds, fun hn => ?refused⟩
  case bounds => exact ⟨one_le_lo ha, lo_le_L ha, L_le_hi ha, Nat.le_sub_one_of_lt (hi_lt_two_mul_L ha)⟩
  case refused =>
    exact ⟨step_of_not_admitted hn, exec_reset_of_not_admitted hn, exec_endStream_of_not_admitted hn,
      exec_addSample_of_not_admitted hn⟩

/-- Settles O53: with no downstream work a step runs what is offered, and an offer that decodes is not a pause. -/
theorem stepRunsTheDecodedOperation : Obligations.StepRunsTheDecodedOperation := by
  intro s o rest i ha hstage hsource hdecode
  rw [step_of_stage_idle ha hstage, runOffered_of_decode_ok hsource hdecode]

end Sys2Proof.Proofs
end

section
/-! SUPPORT. The state (10_state.md): the finite run counter, what DECODE gives, which call each operation is, the parts
of the invariant, and the machine seen without its buffer. -/

namespace Sys2Proof.Machine

/-! The finite run counter (R27). -/

/-- Counting modulo `L` is an increment that wraps at `L`. -/
theorem add_one_mod_eq_wrap {L : Nat} (hL : 0 < L) (c : Nat) :
    (c + 1) % L = if c % L + 1 = L then 0 else c % L + 1 := by
  have hlt := Nat.mod_lt c hL
  split
  · next hwrap => rw [← Nat.mod_add_mod, hwrap, Nat.mod_self]
  · next hwrap => rw [← Nat.mod_add_mod, Nat.mod_eq_of_lt (by omega)]

theorem finOf_succ {cfg : Cfg} (hL : 0 < cfg.L) (c : Nat) : finOf cfg (c + 1) = finNext cfg (finOf cfg c) := by
  have hsat : min (c + 1) (hi cfg + 1) =
      if min c (hi cfg + 1) ≤ hi cfg then min c (hi cfg + 1) + 1 else min c (hi cfg + 1) := by
    split <;> omega
  rw [finOf, hsat, add_one_mod_eq_wrap hL]
  rfl

/-- Saturation at `HI + 1` keeps the comparison with every bound up to there. -/
theorem finOf_sat_lt_iff {cfg : Cfg} {bound : Nat} (hb : bound ≤ hi cfg + 1) (c : Nat) :
    (finOf cfg c).sat < bound ↔ c < bound := by
  simp only [finOf]
  omega

theorem lo_le_succ_hi {cfg : Cfg} (ha : admitted cfg = true) : lo cfg ≤ hi cfg + 1 :=
  (lo_le_L ha).trans ((L_le_hi ha).trans (Nat.le_succ _))

theorem finTooShort_finOf {cfg : Cfg} (ha : admitted cfg = true) (c : Nat) :
    finTooShort cfg (finOf cfg c) = tooShort cfg c := by
  simp only [finTooShort, tooShort, finOf_sat_lt_iff (lo_le_succ_hi ha)]

theorem finInTolerance_finOf {cfg : Cfg} (ha : admitted cfg = true) (c : Nat) :
    finInTolerance cfg (finOf cfg c) = inTolerance cfg c := by
  have hbelow : lo cfg ≤ (finOf cfg c).sat ↔ lo cfg ≤ c := by
    rw [← not_lt, finOf_sat_lt_iff (lo_le_succ_hi ha), not_lt]
  have habove : (finOf cfg c).sat ≤ hi cfg ↔ c ≤ hi cfg := by
    rw [← Nat.lt_add_one_iff, finOf_sat_lt_iff le_rfl, Nat.lt_add_one_iff]
  simp only [finInTolerance, inTolerance, hbelow, habove]

/-! What DECODE gives (R143). -/

theorem extractLsb'_one_eq_ofBool {w : Nat} (x : BitVec w) (k : Nat) :
    x.extractLsb' k 1 = BitVec.ofBool (x.getLsbD k) := by
  ext i hi
  simp [show i = 0 by omega]

/-- The fields CLASSIFY extracts, put back in their places, are the codeword (R80). -/
theorem enc_classify (w : Word32) : enc (classify w) = w := by
  have hwhole : w.extractLsb' 0 32 = w := BitVec.extractLsb'_eq_self
  unfold classify
  split
  · next hidle => exact hidle.symm
  split
  · next hbit =>
    have hfirst : 0#1 = w.extractLsb' 31 1 := by rw [extractLsb'_one_eq_ofBool, hbit]; rfl
    simp only [addressFields, enc, hfirst]
    rw [BitVec.extractLsb'_append_extractLsb'_eq_extractLsb', BitVec.extractLsb'_append_extractLsb'_eq_extractLsb',
      BitVec.extractLsb'_append_extractLsb'_eq_extractLsb', BitVec.extractLsb'_append_extractLsb'_eq_extractLsb']
    exact hwhole
    all_goals rfl
  · next hbit =>
    have hfirst : 1#1 = w.extractLsb' 31 1 := by rw [extractLsb'_one_eq_ofBool, eq_true_of_ne_false hbit]; rfl
    simp only [messageFields, enc, hfirst]
    rw [BitVec.extractLsb'_append_extractLsb'_eq_extractLsb', BitVec.extractLsb'_append_extractLsb'_eq_extractLsb',
      BitVec.extractLsb'_append_extractLsb'_eq_extractLsb']
    exact hwhole
    all_goals rfl

theorem properCodeword_classify (w : Word32) : properCodeword (classify w) = true := by
  simp [properCodeword, enc_classify]

@[simp] theorem sliceBatch_length (b : Bits) : (sliceBatch b).length = 16 := by
  simp [sliceBatch]

theorem wholeBatches_nil : WholeBatches [] := by
  simp [WholeBatches]

theorem WholeBatches.append {xs ys : List Codeword} (hx : WholeBatches xs) (hy : WholeBatches ys) :
    WholeBatches (xs ++ ys) := by
  obtain ⟨hxlen, hxproper⟩ := hx
  obtain ⟨hylen, hyproper⟩ := hy
  refine ⟨?_, fun c hc => ?_⟩
  · rw [List.length_append]
    exact Nat.dvd_add hxlen hylen
  · exact (List.mem_append.mp hc).elim (hxproper c) (hyproper c)

theorem parseBatch_wholeBatches (b : Option Bits) : WholeBatches (parseBatch b) := by
  cases b with
  | none => exact wholeBatches_nil
  | some b =>
    refine ⟨by simp [parseBatch], fun c hc => ?_⟩
    obtain ⟨w, -, rfl⟩ := List.mem_map.mp hc
    exact properCodeword_classify w

theorem codewordsAt_wholeBatches (B : Bits) (i : Nat) : WholeBatches (codewordsAt B i) := by
  unfold codewordsAt
  split
  · exact parseBatch_wholeBatches _
  · exact wholeBatches_nil

theorem decodeStream_wholeBatches (B : Bits) : WholeBatches (decodeStream B) := by
  induction B with
  | nil => exact wholeBatches_nil
  | cons b t ih => exact (codewordsAt_wholeBatches (b :: t) 0).append ih

/-! RESET (R37, R100). -/

theorem exec_reset_of_admitted {s : State} (ha : admitted s.cfg = true) :
    exec .reset s = .next { s with st := resetSync, ended := false, stage := .idle, result := .none, raised := [] } := by
  simp [exec, execReset, ha]

theorem admitted_resetCfg : admitted resetCfg = true := by decide

/-! Which call an operation is: under an arm's selecting condition ADDSAMPLE makes the call of that arm (R102, R110). -/

section Calls

variable {cfg : Cfg} {n : Nat} {smp : Bool} {st : SymSync}

theorem selUSame_iff : selUSame st smp = true ↔ st.state = .unlocked ∧ smp = st.last := by
  simp [selUSame, edge]

theorem selUEdgeOk_iff :
    selUEdgeOk cfg st smp = true ↔ st.state = .unlocked ∧ smp ≠ st.last ∧ inTolerance cfg st.sampCount = true := by
  simp [selUEdgeOk, edge, and_assoc]

theorem selUEdgeBad_iff :
    selUEdgeBad cfg st smp = true ↔ st.state = .unlocked ∧ smp ≠ st.last ∧ inTolerance cfg st.sampCount = false := by
  simp [selUEdgeBad, edge, and_assoc]

theorem selULock_iff : selULock cfg st smp = true ↔ selUEdgeOk cfg st smp = true ∧ st.preambCount + 1 = cfg.K := by
  simp [selULock]

theorem selLMid_iff : selLMid cfg st = true ↔ st.state = .locked ∧ midpoint cfg st.sampCount = true := by
  simp [selLMid]

theorem selLSame_iff : selLSame st smp = true ↔ st.state = .locked ∧ smp = st.last := by
  simp [selLSame, edge]

theorem selLEdgeKeep_iff :
    selLEdgeKeep cfg st smp = true ↔ st.state = .locked ∧ smp ≠ st.last ∧ tooShort cfg st.sampCount = false := by
  simp [selLEdgeKeep, edge, and_assoc]

theorem selLEdgeLose_iff :
    selLEdgeLose cfg st smp = true ↔ st.state = .locked ∧ smp ≠ st.last ∧ tooShort cfg st.sampCount = true := by
  simp [selLEdgeLose, edge, and_assoc]

theorem callSample_of_selUSame (h : selUSame st smp = true) : callSample cfg n smp st = callUSame smp st := by
  obtain ⟨hs, he⟩ := selUSame_iff.mp h
  simp [callSample, edge, hs, he]

theorem callSample_of_selUEdgeOk (h : selUEdgeOk cfg st smp = true) :
    callSample cfg n smp st = callUEdgeOk cfg smp st := by
  obtain ⟨hs, he, ht⟩ := selUEdgeOk_iff.mp h
  simp [callSample, edge, hs, he, ht]

theorem callSample_of_selUEdgeBad (h : selUEdgeBad cfg st smp = true) :
    callSample cfg n smp st = callUEdgeBad smp st := by
  obtain ⟨hs, he, ht⟩ := selUEdgeBad_iff.mp h
  simp [callSample, edge, hs, he, ht]

theorem actUEdgeOk_preambCount : (actUEdgeOk cfg st).preambCount = st.preambCount + 1 := by
  simp [actUEdgeOk]

theorem callSample_of_selULock (h : selULock cfg st smp = true) : callSample cfg n smp st = callULock cfg smp st := by
  obtain ⟨hok, hK⟩ := selULock_iff.mp h
  simp [callSample_of_selUEdgeOk hok, callUEdgeOk, actUEdgeOk_preambCount, hK]

theorem callSample_of_selLMid (h : selLMid cfg st = true) :
    callSample cfg n smp st = closeLocked cfg n smp st (actLMid cfg smp st) := by
  obtain ⟨hs, hm⟩ := selLMid_iff.mp h
  simp [callSample, midFirst, hs, hm]

theorem callSample_of_selLSame (h : selLSame st smp = true) :
    callSample cfg n smp st = closeLSame smp (midFirst cfg smp st) := by
  obtain ⟨hs, he⟩ := selLSame_iff.mp h
  simp [callSample, closeLocked, edge, hs, he]

theorem callSample_of_selLEdgeKeep (h : selLEdgeKeep cfg st smp = true) :
    callSample cfg n smp st = closeLEdgeKeep smp (midFirst cfg smp st) := by
  obtain ⟨hs, he, ht⟩ := selLEdgeKeep_iff.mp h
  simp [callSample, closeLocked, edge, hs, he, ht]

theorem callSample_of_selLEdgeLose (h : selLEdgeLose cfg st smp = true) :
    callSample cfg n smp st = closeLEdgeLose n smp (midFirst cfg smp st) := by
  obtain ⟨hs, he, ht⟩ := selLEdgeLose_iff.mp h
  simp [callSample, closeLocked, edge, hs, he, ht]

end Calls

/-- The state after a sample is taken (R102). -/
def afterSample (raw : Bool) (s : State) : State :=
  let p := callSample s.cfg s.freeCount (corrected s.cfg raw) s.st
  { s with st := p.st, result := .emission p.out, raised := p.raised, freeCount := s.freeCount + p.used }

/-- While samples are accepted every one is taken. -/
theorem exec_addSample_of_accepting {s : State} (h : Accepting s) (raw : Bool) :
    exec (.addSample raw) s = .next (afterSample raw s) :=
  takeReply_of_accepting h _

theorem exec_addSample_next {raw : Bool} {s t : State} (h : exec (.addSample raw) s = .next t) :
    Accepting s ∧ t = afterSample raw s := by
  have htake : takeReply s (some (callSample s.cfg s.freeCount (corrected s.cfg raw) s.st)) = .next t := h
  obtain ⟨hacc, -, -, -⟩ := takeReply_next htake
  exact ⟨hacc, by cases (exec_addSample_of_accepting hacc raw).symm.trans h; rfl⟩

/-- An arm's operation that answers is the call ADDSAMPLE makes, when under its selecting condition the two calls are
one. -/
theorem takeReply_of_selected {s t : State} {sel : Bool} {p q : Reply} (hsel : sel = true → q = p)
    (h : takeReply s (if sel then some p else none) = .next t) : takeReply s (some q) = .next t := by
  cases sel with
  | true => rw [hsel rfl]; exact h
  | false =>
    obtain ⟨-, r, hr, -⟩ := takeReply_next h
    cases hr

/-- An operation that answers is a call of ADDSAMPLE, or RESET, or leaves `st` as it is; and of these last DECODE alone
calls for downstream work (R50). -/
theorem exec_next_cases {i : Instr} {s t : State} (h : exec i s = .next t) :
    (∃ raw, exec (.addSample raw) s = .next t) ∨
    (t.st = resetSync ∧ nextStage t.result = .idle) ∨
    (t.st = s.st ∧ nextStage t.result = .idle) ∨
    (∃ B, t.st = s.st ∧ t.result = .codewords (decodeStream B)) := by
  cases i with
  | addSample raw => exact .inl ⟨raw, h⟩
  | uSame raw => exact .inl ⟨raw, takeReply_of_selected callSample_of_selUSame h⟩
  | uEdgeOk raw => exact .inl ⟨raw, takeReply_of_selected callSample_of_selUEdgeOk h⟩
  | uEdgeBad raw => exact .inl ⟨raw, takeReply_of_selected callSample_of_selUEdgeBad h⟩
  | uLock raw => exact .inl ⟨raw, takeReply_of_selected callSample_of_selULock h⟩
  | lMid raw => exact .inl ⟨raw, takeReply_of_selected callSample_of_selLMid h⟩
  | lSame raw => exact .inl ⟨raw, takeReply_of_selected callSample_of_selLSame h⟩
  | lEdgeKeep raw => exact .inl ⟨raw, takeReply_of_selected callSample_of_selLEdgeKeep h⟩
  | lEdgeLose raw => exact .inl ⟨raw, takeReply_of_selected callSample_of_selLEdgeLose h⟩
  | reset =>
    simp only [exec, execReset] at h
    split at h <;> cases h
    exact .inr (.inl ⟨rfl, rfl⟩)
  | decode B => cases h; exact .inr (.inr (.inr ⟨B, rfl, rfl⟩))
  | endStream =>
    simp only [exec, execEndStream] at h
    split at h <;> cases h
    exact .inr (.inr (.inl ⟨rfl, rfl⟩))
  | syncMatch B i =>
    simp only [exec, execSyncMatch] at h
    split at h <;> cases h
    exact .inr (.inr (.inl ⟨rfl, rfl⟩))
  | slice b =>
    simp only [exec, execSlice] at h
    split at h <;> cases h
    exact .inr (.inr (.inl ⟨rfl, rfl⟩))
  | sync | idle | address | message | batch | classify | assemble | septet | format =>
    cases h
    exact .inr (.inr (.inl ⟨rfl, rfl⟩))

/-! The downstream work, stage by stage (R50, R136). -/

section Stages

variable {s : State}

theorem runStage_of_idle (hs : s.stage = .idle) : runStage s = .next { s with source := passTime s.source } := by
  simp [runStage, hs]

theorem runStage_of_decode {B : Bits} (hs : s.stage = .decode B) :
    runStage s = .next { s with
      source := passTime s.source, stage := .deliver (decodeStream B) (decodeStream B),
      result := .codewords (decodeStream B), raised := decodeConditions B } := by
  simp only [runStage, hs]
  rfl

theorem runStage_of_deliver_nil {all : List Codeword} (hs : s.stage = .deliver [] all) :
    runStage s = .next { s with
      source := passTime s.source, stage := .assemble all, result := .deliveryDone, raised := [] } := by
  simp [runStage, hs]

theorem runStage_of_deliver_cons {c : Codeword} {todo all : List Codeword} (hs : s.stage = .deliver (c :: todo) all) :
    runStage s = .next { s with
      source := passTime s.source
      stage := if stallAsked s.source then .deliver (c :: todo) all else .deliver todo all
      result := if stallAsked s.source then .none else .delivered c
      raised := [] } := by
  cases hstall : stallAsked s.source <;> simp [runStage, hs, hstall]

theorem runStage_of_assemble {cws : List Codeword} (hs : s.stage = .assemble cws) :
    runStage s = .next { s with
      source := passTime s.source, stage := .idle, result := .line (assembleLine cws), raised := [] } := by
  simp only [runStage, hs]
  rfl

end Stages

/-! The parts of the invariant (R30). -/

/-- What the invariant says of the record in each of its two control states. -/
def LockInv (cfg : Cfg) (st : SymSync) : Prop :=
  (st.state = .unlocked → UnlockedInv cfg st) ∧ (st.state = .locked → LockedInv cfg st)

theorem inv_iff {s : State} :
    Inv s ↔ admitted s.cfg = true ∧ LockInv s.cfg s.st ∧ CapacityInv s.cfg s.st ∧ StageInv s.stage := by
  simp only [Inv, LockInv, and_assoc]

theorem lockInv_of_unlocked {cfg : Cfg} {st : SymSync} (hs : st.state = .unlocked) :
    LockInv cfg st ↔ UnlockedInv cfg st := by
  simp [LockInv, hs]

theorem lockInv_of_locked {cfg : Cfg} {st : SymSync} (hs : st.state = .locked) :
    LockInv cfg st ↔ LockedInv cfg st := by
  simp [LockInv, hs]

theorem alternating_iff_isChain (B : Bits) : alternating B = true ↔ B.IsChain (· ≠ ·) := by
  fun_induction alternating B with
  | case1 => simp
  | case2 => simp
  | case3 a b t ih => simp [ih]

/-- The next level of a preamble is one that differs from the last. -/
theorem alternating_append_one {B : Bits} {b : Bool} (hB : alternating B = true)
    (hlast : ∀ x, B.getLast? = some x → x ≠ b) : alternating (B ++ [b]) = true := by
  rw [alternating_iff_isChain] at hB ⊢
  exact List.isChain_append.mpr ⟨hB, List.isChain_singleton b, by simpa using hlast⟩

theorem capacityInv_iff {cfg : Cfg} {st : SymSync} :
    CapacityInv cfg st ↔
      (cfg.bufCapacity = none → st.ovf = false) ∧ ∀ n, cfg.bufCapacity = some n → st.buffer.length ≤ n := by
  unfold CapacityInv
  cases cfg.bufCapacity <;> simp

theorem CapacityInv.of_length_le {cfg : Cfg} {st st' : SymSync} (h : CapacityInv cfg st) (ho : st'.ovf = st.ovf)
    (hb : st'.buffer.length ≤ st.buffer.length) : CapacityInv cfg st' := by
  obtain ⟨hovf, hlen⟩ := capacityInv_iff.mp h
  exact capacityInv_iff.mpr ⟨fun hc => ho.trans (hovf hc), fun n hn => hb.trans (hlen n hn)⟩

theorem CapacityInv.bufAppend {cfg : Cfg} {st : SymSync} (h : CapacityInv cfg st) (b : Bool) :
    CapacityInv cfg (bufAppend cfg b st) := by
  obtain ⟨hovf, hlen⟩ := capacityInv_iff.mp h
  refine capacityInv_iff.mpr ⟨fun hc => ?_, fun n hn => bufAppend_keeps_capacity hn (hlen n hn)⟩
  rw [bufAppend_of_room (bufFull_of_unbounded hc st)]
  exact hovf hc

theorem CapacityInv.midFirst {cfg : Cfg} {st : SymSync} (h : CapacityInv cfg st) (smp : Bool) :
    CapacityInv cfg (midFirst cfg smp st) := by
  unfold Machine.midFirst
  split
  · exact h.bufAppend smp
  · exact h

theorem capacityInv_of_empty {cfg : Cfg} {st : SymSync} (ho : st.ovf = false) (hb : st.buffer = []) :
    CapacityInv cfg st :=
  capacityInv_iff.mpr ⟨fun _ => ho, fun n _ => by simp [hb]⟩

theorem unlockedInv_of_empty {cfg : Cfg} {st : SymSync} (ha : admitted cfg = true) (hp : st.preambCount = 0)
    (hb : st.buffer = []) : UnlockedInv cfg st := by
  obtain ⟨-, -, hK, -⟩ := admitted_iff.mp ha
  exact ⟨by omega, by simp [hb, hp], by simp [hb, alternating], by simp [hb]⟩

theorem lockInv_resetSync {cfg : Cfg} (ha : admitted cfg = true) : LockInv cfg resetSync :=
  (lockInv_of_unlocked rfl).mpr (unlockedInv_of_empty ha rfl rfl)

theorem capacityInv_resetSync {cfg : Cfg} : CapacityInv cfg resetSync :=
  capacityInv_of_empty rfl rfl

/-- While Unlocked the buffer is shorter than `K`, hence than every admitted capacity (R116). -/
theorem UnlockedInv.bufFull_eq_false {cfg : Cfg} {st : SymSync} (ha : admitted cfg = true) (h : UnlockedInv cfg st) :
    bufFull cfg st = false := by
  obtain ⟨-, -, -, hcap⟩ := admitted_iff.mp ha
  obtain ⟨hK, hlen, -, -⟩ := h
  cases hc : cfg.bufCapacity with
  | none => exact bufFull_of_unbounded hc st
  | some n =>
    have hn := hcap n hc
    simp only [bufFull, hc, decide_eq_false_iff_not]
    omega

/-- The first `K` bits of a buffer that holds as many stay when one is appended. -/
theorem LockedInv.midFirst {cfg : Cfg} {st : SymSync} (h : LockedInv cfg st) (smp : Bool) :
    LockedInv cfg (midFirst cfg smp st) := by
  obtain ⟨hp, hkeep⟩ := h
  rcases midFirst_cases cfg smp st with e | e | e <;> rw [e]
  · exact ⟨hp, hkeep⟩
  · refine ⟨hp, fun hk => ?_⟩
    obtain ⟨hlen, halt⟩ := hkeep hk
    refine ⟨hlen.trans (by simp), ?_⟩
    rw [List.take_append_of_le_length hlen]
    exact halt
  · exact ⟨hp, hkeep⟩

@[simp] theorem midFirst_state (cfg : Cfg) (smp : Bool) (st : SymSync) : (midFirst cfg smp st).state = st.state := by
  rcases midFirst_cases cfg smp st with e | e | e <;> rw [e]

/-! Each call keeps the invariant of the record: first its capacity, then what it says by control state. -/

section CallsKeepTheInvariant

variable {cfg : Cfg} {smp : Bool} {st : SymSync}

theorem callUEdgeOk_keeps_capacityInv (h : CapacityInv cfg st) : CapacityInv cfg (callUEdgeOk cfg smp st).st := by
  have hok : CapacityInv cfg (actUEdgeOk cfg st) := h.bufAppend st.last
  simp only [callUEdgeOk, callULock, actULock]
  split
  · refine hok.of_length_le rfl ?_
    simp only [setLast_buffer, acquireLock_buffer]
    split <;> simp
  · exact hok

theorem callSample_keeps_capacityInv (h : CapacityInv cfg st) (n : Nat) :
    CapacityInv cfg (callSample cfg n smp st).st := by
  rcases callSample_cases cfg n smp st with ⟨-, e⟩ | ⟨-, e⟩ | ⟨-, e⟩ | ⟨-, e⟩ | ⟨-, e⟩ | ⟨-, e⟩ <;> rw [e]
  · exact h
  · exact callUEdgeOk_keeps_capacityInv h
  · exact h.of_length_le rfl (Nat.zero_le _)
  · exact h.midFirst smp
  · exact h.midFirst smp
  · exact (h.midFirst smp).of_length_le rfl (Nat.zero_le _)

theorem callUSame_keeps_lockInv (h : LockInv cfg st) (hsel : selUSame st smp = true) :
    LockInv cfg (callUSame smp st).st := by
  obtain ⟨-, rfl⟩ := selUSame_iff.mp hsel
  exact h

theorem actUEdgeOk_of_room (hroom : bufFull cfg st = false) :
    actUEdgeOk cfg st =
      { st with buffer := st.buffer ++ [st.last], preambCount := st.preambCount + 1, sampCount := 0 } := by
  simp [actUEdgeOk, bufAppend_of_room hroom, restartRun]

/-- A valid run lengthens the alternating preamble by its level; the `K`-th one acquires lock (R107, R109). -/
theorem callUEdgeOk_keeps_lockInv (ha : admitted cfg = true) (h : LockInv cfg st)
    (hsel : selUEdgeOk cfg st smp = true) : LockInv cfg (callUEdgeOk cfg smp st).st := by
  obtain ⟨hs, hedge, -⟩ := selUEdgeOk_iff.mp hsel
  have hu := (lockInv_of_unlocked hs).mp h
  have hroom := hu.bufFull_eq_false ha
  obtain ⟨hK, hlen, halt, hlast⟩ := hu
  have halt' := alternating_append_one halt hlast
  simp only [callUEdgeOk, callULock, actULock, actUEdgeOk_of_room hroom]
  split
  · next hfull =>
    refine (lockInv_of_locked rfl).mpr ⟨rfl, fun hk => ?_⟩
    simp [hk, hlen, ← hfull, halt', List.take_of_length_le]
  · next hmore =>
    rw [lockInv_of_unlocked (by exact hs)]
    exact ⟨Nat.lt_of_le_of_ne hK hmore, by simp [hlen], halt', by simpa using hedge.symm⟩

theorem callUEdgeBad_keeps_lockInv (ha : admitted cfg = true) (hsel : selUEdgeBad cfg st smp = true) :
    LockInv cfg (callUEdgeBad smp st).st := by
  obtain ⟨hs, -, -⟩ := selUEdgeBad_iff.mp hsel
  rw [lockInv_of_unlocked (by exact hs)]
  exact unlockedInv_of_empty ha rfl rfl

/-- A Locked call that keeps lock writes, after its midpoint test, nothing that the invariant speaks of (R112, R113). -/
theorem lockInv_of_midFirst {st' : SymSync} (h : LockInv cfg st) (hs : st.state = .locked)
    (hstate : st'.state = (midFirst cfg smp st).state) (hp : st'.preambCount = (midFirst cfg smp st).preambCount)
    (hbuf : st'.buffer = (midFirst cfg smp st).buffer) : LockInv cfg st' := by
  have hmid : LockedInv cfg (midFirst cfg smp st) := ((lockInv_of_locked hs).mp h).midFirst smp
  rw [lockInv_of_locked (hstate.trans ((midFirst_state cfg smp st).trans hs)), LockedInv, hp, hbuf]
  exact hmid

theorem closeLEdgeLose_lockInv (ha : admitted cfg = true) (n : Nat) : LockInv cfg (closeLEdgeLose n smp st).st :=
  (lockInv_of_unlocked rfl).mpr (unlockedInv_of_empty ha rfl rfl)

theorem callSample_keeps_lockInv (ha : admitted cfg = true) (h : LockInv cfg st) (n : Nat) :
    LockInv cfg (callSample cfg n smp st).st := by
  rcases callSample_cases cfg n smp st with
    ⟨hsel, e⟩ | ⟨hsel, e⟩ | ⟨hsel, e⟩ | ⟨hsel, e⟩ | ⟨hsel, e⟩ | ⟨-, e⟩ <;> rw [e]
  · exact callUSame_keeps_lockInv h hsel
  · exact callUEdgeOk_keeps_lockInv ha h hsel
  · exact callUEdgeBad_keeps_lockInv ha hsel
  · obtain ⟨hs, -⟩ := selLSame_iff.mp hsel
    exact lockInv_of_midFirst h hs rfl rfl rfl
  · obtain ⟨hs, -⟩ := selLEdgeKeep_iff.mp hsel
    exact lockInv_of_midFirst h hs rfl rfl rfl
  · exact closeLEdgeLose_lockInv ha n

end CallsKeepTheInvariant

/-! Operations and downstream work keep the invariant. -/

theorem stageInv_deliver_decodeStream (B : Bits) : StageInv (.deliver (decodeStream B) (decodeStream B)) :=
  ⟨decodeStream_wholeBatches B, List.suffix_refl _⟩

theorem stageInv_nextStage_emission (out : Option Bits) : StageInv (nextStage (.emission out)) := by
  cases out <;> trivial

/-- An operation, with the downstream work its value calls for, keeps the invariant. -/
theorem exec_advance_keeps_inv {i : Instr} {s t : State} (hi : Inv s) (h : exec i s = .next t) : Inv (advance t) := by
  obtain ⟨ha, hlock, hcap, -⟩ := inv_iff.mp hi
  obtain ⟨hcfg, -⟩ := exec_next_frame h
  rw [inv_iff, advance_cfg, advance_st, advance_stage, hcfg]
  rcases exec_next_cases h with ⟨raw, hsample⟩ | ⟨hst, hstage⟩ | ⟨hst, hstage⟩ | ⟨B, hst, hres⟩
  · obtain ⟨-, rfl⟩ := exec_addSample_next hsample
    exact ⟨ha, callSample_keeps_lockInv ha hlock _, callSample_keeps_capacityInv hcap _, stageInv_nextStage_emission _⟩
  · rw [hst, hstage]
    exact ⟨ha, lockInv_resetSync ha, capacityInv_resetSync, trivial⟩
  · rw [hst, hstage]
    exact ⟨ha, hlock, hcap, trivial⟩
  · rw [hst, hres]
    exact ⟨ha, hlock, hcap, stageInv_deliver_decodeStream B⟩

/-- What the environment has yet to offer is outside the invariant. -/
theorem inv_source_iff {s : State} {src : List Offer} : Inv { s with source := src } ↔ Inv s := Iff.rfl

theorem runOffered_keeps_inv {s t : State} (hi : Inv s) (h : runOffered s = .next t) : Inv t := by
  rcases runOffered_next h with ⟨-, rfl⟩ | ⟨o, rest, -, -, rfl⟩ | ⟨o, rest, i, u, -, -, -, hexec, rfl⟩
  · exact hi
  · exact inv_source_iff.mpr hi
  · exact exec_advance_keeps_inv (inv_source_iff.mpr hi) hexec

/-- Downstream work keeps the invariant: a sequence moves on whole, and what is left of it stays an end part (R136). -/
theorem runStage_keeps_inv {s t : State} (hi : Inv s) (h : runStage s = .next t) : Inv t := by
  obtain ⟨ha, hlock, hcap, hstage⟩ := inv_iff.mp hi
  rw [inv_iff]
  cases hs : s.stage with
  | idle => cases (runStage_of_idle hs).symm.trans h; exact ⟨ha, hlock, hcap, hstage⟩
  | decode B => cases (runStage_of_decode hs).symm.trans h; exact ⟨ha, hlock, hcap, stageInv_deliver_decodeStream B⟩
  | assemble cws => cases (runStage_of_assemble hs).symm.trans h; exact ⟨ha, hlock, hcap, trivial⟩
  | deliver todo all =>
    rw [hs] at hstage
    obtain ⟨hall, hsuffix⟩ := hstage
    cases todo with
    | nil => cases (runStage_of_deliver_nil hs).symm.trans h; exact ⟨ha, hlock, hcap, hall⟩
    | cons c todo =>
      cases (runStage_of_deliver_cons hs).symm.trans h
      refine ⟨ha, hlock, hcap, ?_⟩
      dsimp only
      split
      · exact ⟨hall, hsuffix⟩
      · exact ⟨hall, (List.suffix_cons c todo).trans hsuffix⟩

theorem step_keeps_inv {s t : State} (hi : Inv s) (h : step s = .next t) : Inv t := by
  obtain ⟨-, ⟨-, hrun⟩ | ⟨-, hrun⟩⟩ := step_next h
  · exact runOffered_keeps_inv hi hrun
  · exact runStage_keeps_inv hi hrun

/-! The machine seen without its buffer (R35). -/

/-- Two records that differ at most in the buffer, and not at all while Locked. -/
def SameButUnlockedBuffer (st st' : SymSync) : Prop :=
  ∃ b, st' = { st with buffer := b } ∧ (st.state = .locked → b = st.buffer)

theorem SameButUnlockedBuffer.refl (st : SymSync) : SameButUnlockedBuffer st st := ⟨st.buffer, rfl, fun _ => rfl⟩

theorem sameButUnlockedBuffer_of_unlocked {st : SymSync} (hs : st.state = .unlocked) (b : Bits) :
    SameButUnlockedBuffer st { st with buffer := b } :=
  ⟨b, rfl, fun hl => by cases hs.symm.trans hl⟩

/-- With an unbounded buffer samples go on being accepted (R116). -/
theorem afterSample_accepting {s : State} (h : Accepting s) (hc : s.cfg.bufCapacity = none) (raw : Bool) :
    Accepting (afterSample raw s) := by
  obtain ⟨ha, he, ho⟩ := h
  have hcap : CapacityInv s.cfg s.st := capacityInv_iff.mpr ⟨fun _ => ho, by simp [hc]⟩
  exact ⟨ha, he, (capacityInv_iff.mp (callSample_keeps_capacityInv hcap _)).1 hc⟩

theorem callUEdgeOk_sameBut {cfg : Cfg} {st : SymSync} (hk : cfg.keepPreamble = false) (hc : cfg.bufCapacity = none)
    (hs : st.state = .unlocked) (smp : Bool) (b : Bits) :
    ∃ q, SameButUnlockedBuffer (callUEdgeOk cfg smp st).st q ∧
      callUEdgeOk cfg smp { st with buffer := b } = { callUEdgeOk cfg smp st with st := q } := by
  simp only [callUEdgeOk, callULock, actULock, actUEdgeOk_of_room (bufFull_of_unbounded hc _)]
  split
  · exact ⟨_, .refl _, by simp [acquireLock, setLast, overflowRaised, hk]⟩
  · exact ⟨_, sameButUnlockedBuffer_of_unlocked (by exact hs) (b ++ [st.last]), rfl⟩

/-- A call reads the buffer only while Locked, and one that acquires lock without `KEEP_PREAMBLE` clears it (R109). -/
theorem callSample_sameBut {cfg : Cfg} {st st' : SymSync} (hk : cfg.keepPreamble = false) (hc : cfg.bufCapacity = none)
    (h : SameButUnlockedBuffer st st') (n : Nat) (smp : Bool) :
    ∃ q, SameButUnlockedBuffer (callSample cfg n smp st).st q ∧
      callSample cfg n smp st' = { callSample cfg n smp st with st := q } := by
  obtain ⟨b, rfl, hb⟩ := h
  have hlocked (hs : st.state = .locked) : ∃ q, SameButUnlockedBuffer (callSample cfg n smp st).st q ∧
      callSample cfg n smp { st with buffer := b } = { callSample cfg n smp st with st := q } := by
    obtain rfl := hb hs
    exact ⟨_, .refl _, rfl⟩
  rcases callSample_cases cfg n smp st with
    ⟨hsel, e⟩ | ⟨hsel, e⟩ | ⟨hsel, e⟩ | ⟨hsel, -⟩ | ⟨hsel, -⟩ | ⟨hsel, -⟩
  · obtain ⟨hs, -⟩ := selUSame_iff.mp hsel
    rw [e, callSample_of_selUSame (by exact hsel)]
    exact ⟨_, sameButUnlockedBuffer_of_unlocked (by exact hs) b, rfl⟩
  · obtain ⟨hs, -⟩ := selUEdgeOk_iff.mp hsel
    rw [e, callSample_of_selUEdgeOk (by exact hsel)]
    exact callUEdgeOk_sameBut hk hc hs smp b
  · rw [e, callSample_of_selUEdgeBad (by exact hsel)]
    exact ⟨_, .refl _, rfl⟩
  · exact hlocked (selLSame_iff.mp hsel).1
  · exact hlocked (selLEdgeKeep_iff.mp hsel).1
  · exact hlocked (selLEdgeLose_iff.mp hsel).1

theorem feed_cons_some {x : Bool} {xs : List Bool} {s t : State} {tr : Trace} (h : exec (.addSample x) s = .next t)
    (htr : feed xs t = some tr) :
    feed (x :: xs) s = some { tr with emissions := emitted t.result ++ tr.emissions, conds := t.raised ++ tr.conds } := by
  rw [feed_cons h, htr, Option.map_some]

/-- Over a stream the other buffer shows in the buffer of the final state alone, and there only while Unlocked. -/
theorem feed_sameBut (xs : List Bool) {s : State} {st' : SymSync} (hacc : Accepting s)
    (hk : s.cfg.keepPreamble = false) (hc : s.cfg.bufCapacity = none) (h : SameButUnlockedBuffer s.st st') :
    ∃ tr q, feed xs s = some tr ∧ feed xs { s with st := st' } = some { tr with final := { tr.final with st := q } } ∧
      SameButUnlockedBuffer tr.final.st q := by
  induction xs generalizing s st' with
  | nil => exact ⟨_, st', rfl, rfl, h⟩
  | cons x xs ih =>
    obtain ⟨st₁, hst₁, hcall⟩ := callSample_sameBut hk hc h s.freeCount (corrected s.cfg x)
    have hacc' : Accepting { s with st := st' } := by
      obtain ⟨b, rfl, -⟩ := h
      exact hacc
    have hother : afterSample x { s with st := st' } = { afterSample x s with st := st₁ } := by
      simp only [afterSample, hcall]
    have hexec := exec_addSample_of_accepting hacc x
    have hexec' := exec_addSample_of_accepting hacc' x
    rw [hother] at hexec'
    obtain ⟨tr, q, htr, htr', hq⟩ := ih (afterSample_accepting hacc hc x) hk hc hst₁
    exact ⟨_, q, feed_cons_some hexec htr, feed_cons_some hexec' htr', hq⟩

end Sys2Proof.Machine
end

section
/-! PROOFS. The statements of 10_state.md. -/

namespace Sys2Proof.Proofs

open Sys2Proof Sys2Proof.Machine

/-- Settles O42: a step runs what is offered or does downstream work; each keeps the record's part and the stage's. -/
theorem everyStepKeepsTheInvariant : Obligations.EveryStepKeepsTheInvariant :=
  fun _ _ hi h => step_keeps_inv hi h

/-- Settles O25: saturation keeps the comparisons with LO and HI + 1, and counting modulo `L` wraps. -/
theorem finiteCounterIsIndistinguishable : Obligations.FiniteCounterIsIndistinguishable := by
  intro cfg ha
  obtain ⟨hL, -, -, -⟩ := admitted_iff.mp ha
  refine ⟨by simp [finOf, finZero], fun c => ?_⟩
  exact ⟨finOf_succ hL c, finInTolerance_finOf ha c, finTooShort_finOf ha c, rfl, Nat.min_le_right _ _, Nat.mod_lt c hL⟩

/-- Settles O52: while Unlocked any buffer may stand in for another, so the two streams are one but for it. -/
theorem unlockedBufferIsNeverObserved : Obligations.UnlockedBufferIsNeverObserved := by
  intro s b xs hacc hk hc hs
  obtain ⟨tr, _, htr, htr', b', rfl, hb'⟩ :=
    feed_sameBut xs hacc hk hc (sameButUnlockedBuffer_of_unlocked hs b)
  exact ⟨tr, _, htr, htr', rfl, rfl, b', rfl, hb'⟩

/-- Settles O26: under an admitted configuration RESET answers, and writes `resetSync`. -/
theorem resetSetsEveryField : Obligations.ResetSetsEveryField :=
  fun _ ha => exec_reset_of_admitted ha

/-- Settles O27: the configuration after reset is admitted, so RESET answers there, with the values already held. -/
theorem resetStateHoldsTheSpecValues : Obligations.ResetStateHoldsTheSpecValues :=
  ⟨rfl, exec_reset_of_admitted admitted_resetCfg⟩

/-- Settles O41: an admitted configuration, an empty Unlocked record and no downstream work. -/
theorem resetMeetsTheInvariant : Obligations.ResetMeetsTheInvariant :=
  inv_iff.mpr ⟨admitted_resetCfg, lockInv_resetSync admitted_resetCfg, capacityInv_resetSync, trivial⟩

end Sys2Proof.Proofs
end

section
/-! SUPPORT. Memory and bit strings (20_memory.md): which operations the decoder answers, and the downstream work on one
emission, step by step and as a whole run. -/

namespace Sys2Proof.Machine

/-! The decoder answers well-formed operations: each of its parts, in the order of Decode.lean. -/

theorem instrOfCodeword_wf {c : Codeword} (h : properCodeword c = true) : (instrOfCodeword c).wf = true := by
  cases c with
  | idle => rfl
  | address a f k q => exact h
  | message m k q => rfl

theorem properCodeword_of_decodeRecord {rec : Bits} {c : Codeword} (h : decodeRecord rec = .ok c) :
    properCodeword c = true := by
  simp only [decodeRecord] at h
  split at h
  · cases h
  split at h <;> cases h
  exact properCodeword_classify _

theorem decodeRecords_succ_ok {n : Nat} {B : Bits} {cs : List Codeword} (h : decodeRecords (n + 1) B = .ok cs) :
    ∃ c cs', cs = c :: cs' ∧ decodeRecord (B.take 34) = .ok c ∧ decodeRecords n (B.drop 34) = .ok cs' := by
  cases hc : decodeRecord (B.take 34) with
  | error e => simp [decodeRecords, hc] at h
  | ok c =>
    cases hcs : decodeRecords n (B.drop 34) with
    | error e => simp [decodeRecords, hc, hcs] at h
    | ok cs' =>
      simp only [decodeRecords, hc, hcs] at h
      cases h
      exact ⟨c, cs', rfl, rfl, rfl⟩

theorem all_properCodeword_of_decodeRecords {n : Nat} {B : Bits} {cs : List Codeword} (h : decodeRecords n B = .ok cs) :
    cs.all properCodeword = true := by
  induction n generalizing B cs with
  | zero => cases h; rfl
  | succ n ih =>
    obtain ⟨c, cs', rfl, hc, hcs⟩ := decodeRecords_succ_ok h
    rw [List.all_cons, properCodeword_of_decodeRecord hc, ih hcs, Bool.and_self]

/-- FORMAT takes every operand of its type. -/
theorem wf_of_decodeFormat {B : Bits} {i : Instr} (h : decodeFormat B = .ok i) : i.wf = true := by
  unfold decodeFormat at h
  split at h
  · cases h
  all_goals
    split at h <;> cases h
    rfl

theorem wf_of_decodeSample {f : Bool → Instr} (hf : ∀ b, (f b).wf = true) {B : Bits} {i : Instr}
    (h : decodeSample f B = .ok i) : i.wf = true := by
  unfold decodeSample at h
  split at h <;> cases h
  exact hf _

theorem decodeWord_ok {f : Word32 → Except DecodeError Instr} {B : Bits} {i : Instr} (h : decodeWord f B = .ok i) :
    f (wordOf B) = .ok i := by
  unfold decodeWord at h
  split at h
  · exact h
  · cases h

/-- Each selector's operand test is the well-formedness of its operation. -/
theorem wf_of_decodeBits {sel : Selector} {j : Nat} {B : Bits} {i : Instr} (h : decodeBits sel j B = .ok i) :
    i.wf = true := by
  cases sel with
  | window =>
    simp only [decodeBits] at h
    have hword := decodeWord_ok h
    split at hword <;> cases hword
    rfl
  | codeword =>
    simp only [decodeBits] at h
    cases decodeWord_ok h
    exact instrOfCodeword_wf (properCodeword_classify _)
  | sample | uSame | uEdgeOk | uEdgeBad | uLock | lMid | lSame | lEdgeKeep | lEdgeLose =>
    exact wf_of_decodeSample (fun _ => rfl) h
  | decode | septet => cases h; rfl
  | classify =>
    simp only [decodeBits] at h
    cases decodeWord_ok h
    rfl
  | syncMatch =>
    simp only [decodeBits] at h
    split at h <;> cases h
    next hinside => exact decide_eq_true hinside
  | batch =>
    simp only [decodeBits] at h
    split at h <;> cases h
    next hoccurs => exact beq_iff_eq.mpr hoccurs
  | slice =>
    simp only [decodeBits] at h
    split at h <;> cases h
    next hlen => exact beq_iff_eq.mpr hlen
  | assemble =>
    simp only [decodeBits] at h
    split at h
    · split at h <;> cases h
      next hrecords => exact all_properCodeword_of_decodeRecords hrecords
    · cases h
  | format => exact wf_of_decodeFormat h

theorem wf_of_decodeSlot {sl : Slot} {i : Instr} (h : decodeSlot sl = .ok i) : i.wf = true := by
  unfold decodeSlot at h
  split at h
  · cases h
  · exact wf_of_decodeBits h

theorem wf_of_decode {o : Offer} {i : Instr} (h : decode o = .ok i) : i.wf = true := by
  unfold decode at h
  split at h
  · cases h; rfl
  split at h
  · exact wf_of_decodeSlot h
  · split at h <;> cases h
    rfl

/-! A step of downstream work (R50, R193). -/

/-- The state after a step that did a piece of downstream work: what the work set, and a source that waited (R228). -/
def afterPiece (s : State) (g : Stage) (r : Output) (cs : List Cond) : State :=
  { s with stage := g, result := r, raised := cs, source := passTime s.source }

@[simp] theorem afterPiece_source (s : State) (g : Stage) (r : Output) (cs : List Cond) :
    (afterPiece s g r cs).source = passTime s.source := rfl

section DownstreamStep

variable {s : State} (ha : admitted s.cfg = true) (hr : resetOffered s.source = false)
include ha hr

theorem step_of_stage_busy (hs : stageIdle s.stage = false) : step s = runStage s := by
  simp [step, ha, hr, hs]

theorem step_of_decode {B : Bits} (hs : s.stage = .decode B) :
    step s = .next (afterPiece s (.deliver (decodeStream B) (decodeStream B)) (.codewords (decodeStream B))
      (decodeConditions B)) :=
  (step_of_stage_busy ha hr (by rw [hs]; rfl)).trans (runStage_of_decode hs)

theorem step_of_deliver_nil {all : List Codeword} (hs : s.stage = .deliver [] all) :
    step s = .next (afterPiece s (.assemble all) .deliveryDone []) :=
  (step_of_stage_busy ha hr (by rw [hs]; rfl)).trans (runStage_of_deliver_nil hs)

theorem step_of_stalled {c : Codeword} {todo all : List Codeword} (hs : s.stage = .deliver (c :: todo) all)
    (hstall : stallAsked s.source = true) :
    step s = .next (afterPiece s (.deliver (c :: todo) all) .none []) := by
  rw [step_of_stage_busy ha hr (by rw [hs]; rfl), runStage_of_deliver_cons hs, if_pos hstall, if_pos hstall, afterPiece]

theorem step_of_not_stalled {c : Codeword} {todo all : List Codeword} (hs : s.stage = .deliver (c :: todo) all)
    (hstall : stallAsked s.source = false) :
    step s = .next (afterPiece s (.deliver todo all) (.delivered c) []) := by
  have htakes : ¬ stallAsked s.source = true := by simp [hstall]
  rw [step_of_stage_busy ha hr (by rw [hs]; rfl), runStage_of_deliver_cons hs, if_neg htakes, if_neg htakes, afterPiece]

theorem step_of_assemble {cws : List Codeword} (hs : s.stage = .assemble cws) :
    step s = .next (afterPiece s .idle (.line (assembleLine cws)) []) :=
  (step_of_stage_busy ha hr (by rw [hs]; rfl)).trans (runStage_of_assemble hs)

end DownstreamStep

/-! A run of downstream work. -/

theorem core_run_succ {n : Nat} {s t : State} (h : step s = .next t) :
    Sys2Proof.core.run (n + 1) s = Sys2Proof.core.run n t := by
  have hcore : Sys2Proof.core.step s = .next t := h
  simp only [Host.Core.run, hcore]

/-- `n` steps lead from `s` to `t`, and in them the consumer takes exactly `cws`, in order. -/
def RunTakes (n : Nat) (s : State) (cws : List Codeword) (t : State) : Prop :=
  Sys2Proof.core.run n s = .next t ∧ deliveredIn n s = some cws

theorem RunTakes.zero (s : State) : RunTakes 0 s [] s := ⟨rfl, rfl⟩

theorem RunTakes.head {n : Nat} {s t u : State} {cws : List Codeword} (h : step s = .next t)
    (ht : RunTakes n t cws u) : RunTakes (n + 1) s (taken t.result ++ cws) u := by
  obtain ⟨hrun, htaken⟩ := ht
  exact ⟨(core_run_succ h).trans hrun, by rw [deliveredIn_succ h, htaken, Option.map_some]⟩

/-- The state `n` steps on, when in these the last of the work on the sequence `all` was done: SYMSYNC as it was, the
source as `n` steps of waiting leave it (R50, R228). -/
def afterWork (all : List Codeword) (n : Nat) (s : State) : State :=
  { s with stage := .idle, result := .line (assembleLine all), raised := [], source := passTime^[n] s.source }

theorem afterWork_afterPiece (all : List Codeword) (n : Nat) (s : State) (g : Stage) (r : Output) (cs : List Cond) :
    afterWork all n (afterPiece s g r cs) = afterWork all (n + 1) s := rfl

/-- What is still to be delivered is delivered, and the whole sequence assembled, with at most one step more for each
stall request. Each step either delivers a codeword or uses up a request, so the sum of the two decreases. -/
theorem exists_runTakes_of_deliver {todo all : List Codeword} {s : State} (ha : admitted s.cfg = true)
    (hno : ∀ o ∈ s.source, o.rst = false) (hs : s.stage = .deliver todo all) :
    ∃ m, m ≤ s.source.countP (fun o => o.stall) ∧
      RunTakes (todo.length + 2 + m) s todo (afterWork all (todo.length + 2 + m) s) := by
  induction hwork : todo.length + s.source.countP (fun o => o.stall) using Nat.strong_induction_on
    generalizing todo s with
  | _ work ih =>
    have hr := resetOffered_of_no_reset hno
    cases todo with
    | nil =>
      have hdone := step_of_deliver_nil ha hr hs
      have hassemble := step_of_assemble (s := afterPiece s (.assemble all) .deliveryDone []) ha
        (resetOffered_of_no_reset (passTime_no_reset hno)) rfl
      exact ⟨0, Nat.zero_le _, .head hdone (.head hassemble (.zero _))⟩
    | cons c todo =>
      rw [List.length_cons] at hwork
      have hcount := passTime_countP_stall s.source
      cases hstall : stallAsked s.source with
      | true =>
        rw [hstall, Bool.toNat_true] at hcount
        obtain ⟨m, hm, hrest⟩ := ih (todo.length + 1 + (passTime s.source).countP (fun o => o.stall)) (by omega)
          (s := afterPiece s (.deliver (c :: todo) all) .none []) ha (passTime_no_reset hno) rfl rfl
        rw [afterPiece_source] at hm
        rw [afterWork_afterPiece] at hrest
        exact ⟨m + 1, by omega, .head (step_of_stalled ha hr hs hstall) hrest⟩
      | false =>
        rw [hstall, Bool.toNat_false] at hcount
        obtain ⟨m, hm, hrest⟩ := ih (todo.length + (passTime s.source).countP (fun o => o.stall)) (by omega)
          (s := afterPiece s (.deliver todo all) (.delivered c) []) ha (passTime_no_reset hno) rfl rfl
        rw [afterPiece_source] at hm
        rw [afterWork_afterPiece] at hrest
        have hlen : (c :: todo).length + 2 + m = todo.length + 2 + m + 1 := by rw [List.length_cons]; omega
        refine ⟨m, by omega, ?_⟩
        rw [hlen]
        exact .head (step_of_not_stalled ha hr hs hstall) hrest

/-- DECODE of the emission, the delivery of all its codewords, and ASSEMBLE. -/
theorem exists_runTakes_of_decode {B : Bits} {s : State} (ha : admitted s.cfg = true)
    (hno : ∀ o ∈ s.source, o.rst = false) (hs : s.stage = .decode B) :
    ∃ m, m ≤ s.source.countP (fun o => o.stall) ∧
      RunTakes ((decodeStream B).length + 3 + m) s (decodeStream B)
        (afterWork (decodeStream B) ((decodeStream B).length + 3 + m) s) := by
  have hstep := step_of_decode ha (resetOffered_of_no_reset hno) hs
  have hcount := passTime_countP_stall s.source
  obtain ⟨m, hm, hrest⟩ := exists_runTakes_of_deliver
    (s := afterPiece s (.deliver (decodeStream B) (decodeStream B)) (.codewords (decodeStream B)) (decodeConditions B))
    ha (passTime_no_reset hno) rfl
  rw [afterPiece_source] at hm
  rw [afterWork_afterPiece] at hrest
  have hlen : (decodeStream B).length + 3 + m = (decodeStream B).length + 2 + m + 1 := by omega
  refine ⟨m, by omega, ?_⟩
  rw [hlen]
  exact .head hstep hrest

/-- With nothing offered no delivery is delayed: step `k + 1` delivers codeword `k` of those still to be delivered. -/
theorem run_deliver_of_source_nil {todo all : List Codeword} {s : State} (ha : admitted s.cfg = true)
    (hsrc : s.source = []) (hs : s.stage = .deliver todo all) {k : Nat} (hk : k < todo.length) :
    ∃ t, Sys2Proof.core.run (k + 1) s = .next t ∧ t.result = .delivered todo[k] ∧ t.st = s.st := by
  induction todo generalizing s k with
  | nil => cases hk
  | cons c todo ih =>
    have hstep := step_of_not_stalled ha (by rw [hsrc]; rfl) hs (by rw [hsrc]; rfl)
    rw [core_run_succ hstep]
    cases k with
    | zero => exact ⟨_, rfl, rfl, rfl⟩
    | succ k => exact ih (by exact ha) (by rw [afterPiece_source, hsrc]; rfl) rfl (Nat.lt_of_succ_lt_succ hk)

end Sys2Proof.Machine
end

section
/-! PROOFS. The statements of 20_memory.md. -/

namespace Sys2Proof.Proofs

open Sys2Proof Sys2Proof.Machine

/-- Settles O2: each selector tests its operand for what well-formedness asks, and CLASSIFY gives proper values alone. -/
theorem decodedOperationsAreWellFormed : Obligations.DecodedOperationsAreWellFormed :=
  fun _ _ h => wf_of_decode h

/-- Settles O56: by the stage in progress, and in a delivery by whether the consumer stalls. -/
theorem noSampleIsTakenDuringDelivery : Obligations.NoSampleIsTakenDuringDelivery := by
  intro s ha hbusy hr
  cases hs : s.stage with
  | idle => rw [hs] at hbusy; cases hbusy
  | decode B => exact ⟨_, _, _, step_of_decode ha hr hs, by simp⟩
  | assemble cws => exact ⟨_, _, _, step_of_assemble ha hr hs, by simp⟩
  | deliver todo all =>
    cases todo with
    | nil => exact ⟨_, _, _, step_of_deliver_nil ha hr hs, by simp⟩
    | cons c todo =>
      cases hstall : stallAsked s.source with
      | true => exact ⟨_, _, _, step_of_stalled ha hr hs hstall, by simp⟩
      | false => exact ⟨_, _, _, step_of_not_stalled ha hr hs hstall, by simp⟩

/-- Settles O57: the run is DECODE's step and then the delivery, by induction on what is still to be delivered and the
stall requests left; with nothing offered, by induction on what is still to be delivered. -/
theorem emissionIsDeliveredInOrder : Obligations.EmissionIsDeliveredInOrder := by
  refine fun s B ha hs hno => ⟨?inOrder, fun hsrc k hk => ?unstalled⟩
  case inOrder =>
    obtain ⟨m, hm, hrun, htaken⟩ := exists_runTakes_of_decode ha hno hs
    exact ⟨m, hm, htaken, hrun⟩
  case unstalled =>
    rw [core_run_succ (step_of_decode ha (resetOffered_of_no_reset hno) hs)]
    exact run_deliver_of_source_nil (by exact ha) (by rw [afterPiece_source, hsrc]; rfl) rfl hk

end Sys2Proof.Proofs
end

section
/-! SUPPORT. The encodings (30_encoding.md): bit strings and the values they carry, the codeword layouts and CLASSIFY in
both directions, the records and texts of the operand channels, and the distance of two sync words. -/

namespace Sys2Proof.Machine

/-! Values as bit strings (R41, R80). -/

/-- The first bit of a string is its most significant bit. -/
theorem be_cons (b : Bool) (B : Bits) : be (b :: B) = 2 ^ B.length * b.toNat + be B := by
  induction B using List.reverseRecOn with
  | nil => simp [be]
  | append_singleton B d ih =>
    rw [← List.cons_append, be_append_one, ih, be_append_one, List.length_append, List.length_singleton]
    ring

theorem be_bitsOf (n v : Nat) : be (bitsOf n v) = v % 2 ^ n := by
  induction n with
  | zero => rw [bitsOf, be_nil, pow_zero, Nat.mod_one]
  | succ n ih => rw [bitsOf, be_cons, bitsOf_length, ih, Nat.mod_pow_succ, Nat.toNat_testBit, Nat.add_comm]

theorem be_bitsOf_of_lt {n v : Nat} (h : v < 2 ^ n) : be (bitsOf n v) = v := by
  rw [be_bitsOf, Nat.mod_eq_of_lt h]

@[simp] theorem be_bitsOf_toNat {n : Nat} (x : BitVec n) : be (bitsOf n x.toNat) = x.toNat :=
  be_bitsOf_of_lt x.isLt

@[simp] theorem wordOf_bitsOfWord (w : Word32) : wordOf (bitsOfWord w) = w := by
  rw [wordOf, bitsOfWord, be_bitsOf_toNat, BitVec.ofNat_toNat, BitVec.setWidth_eq]

/-- `bits_n(v)` looks at the low `n` bits of `v` and at nothing else. -/
theorem bitsOf_congr {n u v : Nat} (h : ∀ i, i < n → u.testBit i = v.testBit i) : bitsOf n u = bitsOf n v := by
  induction n with
  | zero => rfl
  | succ n ih => rw [bitsOf, bitsOf, h n n.lt_succ_self, ih fun i hi => h i (Nat.lt_succ_of_lt hi)]

/-- A string is cut by shifting the value: the first `n` bits are those above the last `m`. -/
theorem bitsOf_add (n m v : Nat) : bitsOf (n + m) v = bitsOf n (v >>> m) ++ bitsOf m v := by
  induction n with
  | zero => rw [Nat.zero_add]; rfl
  | succ n ih =>
    rw [Nat.succ_add, bitsOf, bitsOf, ih, Nat.testBit_shiftRight, Nat.add_comm m n, List.cons_append]

/-- Fields joined into a word are their strings joined. -/
theorem bitsOf_toNat_append {n m : Nat} (x : BitVec n) (y : BitVec m) :
    bitsOf (n + m) (x ++ y).toNat = bitsOf n x.toNat ++ bitsOf m y.toNat := by
  rw [bitsOf_add]
  congr 1
  · refine bitsOf_congr fun i _ => ?_
    simp [Nat.testBit_shiftRight, BitVec.testBit_toNat]
  · refine bitsOf_congr fun i hi => ?_
    rw [BitVec.testBit_toNat, BitVec.getLsbD_append, if_pos hi, BitVec.testBit_toNat]

theorem bitsOf_one_toNat (q : BitVec 1) : bitsOf 1 q.toNat = [q == 1] := by
  obtain rfl | rfl := BitVec.eq_zero_or_eq_one q <;> rfl

/-! The codeword layouts (R69 to R72, R80). -/

/-! In the next four lemmas the width is written as the sum of the fields, as the slices of `++` have it. -/

theorem append_slices_18_2_10_1 (z : BitVec 1) (a : BitVec 18) (f : BitVec 2) (c : BitVec 10) (q : BitVec 1) :
    (z ++ a ++ f ++ c ++ q).extractLsb' 13 18 = a ∧ (z ++ a ++ f ++ c ++ q).extractLsb' 11 2 = f ∧
    (z ++ a ++ f ++ c ++ q).extractLsb' 1 10 = c ∧ (z ++ a ++ f ++ c ++ q).extractLsb' 0 1 = q := by
  simp (disch := decide) [BitVec.extractLsb'_append_eq_of_le, BitVec.extractLsb'_append_eq_of_add_le, -Nat.reduceAdd]

theorem append_slices_20_10_1 (z : BitVec 1) (m : BitVec 20) (c : BitVec 10) (q : BitVec 1) :
    (z ++ m ++ c ++ q).extractLsb' 11 20 = m ∧ (z ++ m ++ c ++ q).extractLsb' 1 10 = c ∧
    (z ++ m ++ c ++ q).extractLsb' 0 1 = q := by
  simp (disch := decide) [BitVec.extractLsb'_append_eq_of_le, BitVec.extractLsb'_append_eq_of_add_le, -Nat.reduceAdd]

theorem append_firstBit_18_2_10_1 (z : BitVec 1) (a : BitVec 18) (f : BitVec 2) (c : BitVec 10) (q : BitVec 1) :
    (z ++ a ++ f ++ c ++ q).getLsbD 31 = z.getLsbD 0 := by
  simp only [BitVec.getLsbD_append]
  rfl

theorem append_firstBit_20_10_1 (z : BitVec 1) (m : BitVec 20) (c : BitVec 10) (q : BitVec 1) :
    (z ++ m ++ c ++ q).getLsbD 31 = z.getLsbD 0 := by
  simp only [BitVec.getLsbD_append]
  rfl

theorem bitsOfWord_enc_idle : bitsOfWord (enc .idle) = idleBits := by decide

theorem bitsOfWord_enc_address (a : BitVec 18) (f : BitVec 2) (c : BitVec 10) (q : BitVec 1) :
    bitsOfWord (enc (.address a f c q)) =
      [false] ++ bitsOf 18 a.toNat ++ bitsOf 2 f.toNat ++ bitsOf 10 c.toNat ++ [q == 1] := by
  calc bitsOf (1 + 18 + 2 + 10 + 1) (0#1 ++ a ++ f ++ c ++ q).toNat
    _ = bitsOf 1 (0#1).toNat ++ bitsOf 18 a.toNat ++ bitsOf 2 f.toNat ++ bitsOf 10 c.toNat ++ bitsOf 1 q.toNat := by
      simp only [bitsOf_toNat_append]
    _ = _ := by rw [bitsOf_one_toNat q]; rfl

theorem bitsOfWord_enc_message (m : BitVec 20) (c : BitVec 10) (q : BitVec 1) :
    bitsOfWord (enc (.message m c q)) = [true] ++ bitsOf 20 m.toNat ++ bitsOf 10 c.toNat ++ [q == 1] := by
  calc bitsOf (1 + 20 + 10 + 1) (1#1 ++ m ++ c ++ q).toNat
    _ = bitsOf 1 (1#1).toNat ++ bitsOf 20 m.toNat ++ bitsOf 10 c.toNat ++ bitsOf 1 q.toNat := by
      simp only [bitsOf_toNat_append]
    _ = _ := by rw [bitsOf_one_toNat q]; rfl

theorem enc_address_slices (a : BitVec 18) (f : BitVec 2) (c : BitVec 10) (q : BitVec 1) :
    (enc (.address a f c q)).extractLsb' 13 18 = a ∧ (enc (.address a f c q)).extractLsb' 11 2 = f ∧
    (enc (.address a f c q)).extractLsb' 1 10 = c ∧ (enc (.address a f c q)).extractLsb' 0 1 = q :=
  append_slices_18_2_10_1 0#1 a f c q

theorem enc_message_slices (m : BitVec 20) (c : BitVec 10) (q : BitVec 1) :
    (enc (.message m c q)).extractLsb' 11 20 = m ∧ (enc (.message m c q)).extractLsb' 1 10 = c ∧
    (enc (.message m c q)).extractLsb' 0 1 = q :=
  append_slices_20_10_1 1#1 m c q

theorem addressFields_enc (a : BitVec 18) (f : BitVec 2) (c : BitVec 10) (q : BitVec 1) :
    addressFields (enc (.address a f c q)) = .address a f c q := by
  simp only [addressFields, enc_address_slices]

theorem messageFields_enc (m : BitVec 20) (c : BitVec 10) (q : BitVec 1) :
    messageFields (enc (.message m c q)) = .message m c q := by
  simp only [messageFields, enc_message_slices]

theorem enc_address_firstBit (a : BitVec 18) (f : BitVec 2) (c : BitVec 10) (q : BitVec 1) :
    (enc (.address a f c q)).getLsbD 31 = false :=
  append_firstBit_18_2_10_1 0#1 a f c q

theorem enc_message_firstBit (m : BitVec 20) (c : BitVec 10) (q : BitVec 1) :
    (enc (.message m c q)).getLsbD 31 = true :=
  append_firstBit_20_10_1 1#1 m c q

/-! CLASSIFY, in the order of its tests (R73). -/

theorem idleWord_eq : idleWord = 0x7A89C197#32 := by decide

theorem idleWord_firstBit : idleWord.getLsbD 31 = false := by decide

theorem addressFields_idleWord : addressFields idleWord = .address 0x3D44E 0 0x0CB 1 := by decide

theorem classify_idleWord : classify idleWord = .idle := by simp [classify]

theorem classify_of_first_bit_zero {w : Word32} (hidle : w ≠ idleWord) (hbit : w.getLsbD 31 = false) :
    classify w = addressFields w := by
  rw [classify, if_neg hidle, if_pos hbit]

theorem classify_of_first_bit_one {w : Word32} (hbit : w.getLsbD 31 = true) : classify w = messageFields w := by
  have hidle : w ≠ idleWord := by
    rintro rfl
    rw [idleWord_firstBit] at hbit
    cases hbit
  rw [classify, if_neg hidle, if_neg (by rw [hbit]; exact Bool.noConfusion)]

/-- What CLASSIFY can do: one of three things, each under a test of its own (R73, R74). -/
theorem classify_cases (w : Word32) :
    (w = idleWord ∧ classify w = .idle) ∨
    (w ≠ idleWord ∧ w.getLsbD 31 = false ∧ classify w = addressFields w) ∨
    (w ≠ idleWord ∧ w.getLsbD 31 = true ∧ classify w = messageFields w) := by
  by_cases hidle : w = idleWord
  · exact .inl ⟨hidle, hidle ▸ classify_idleWord⟩
  · cases hbit : w.getLsbD 31 with
    | false => exact .inr (.inl ⟨hidle, rfl, classify_of_first_bit_zero hidle hbit⟩)
    | true => exact .inr (.inr ⟨hidle, rfl, classify_of_first_bit_one hbit⟩)

theorem classify_eq_idle_iff (w : Word32) : classify w = .idle ↔ w = idleWord := by
  obtain ⟨hidle, hc⟩ | ⟨hidle, -, hc⟩ | ⟨hidle, -, hc⟩ := classify_cases w
  · exact iff_of_true hc hidle
  · simp [hc, hidle, addressFields]
  · simp [hc, hidle, messageFields]

theorem classify_eq_address_iff (w : Word32) :
    (∃ a f c q, classify w = .address a f c q) ↔ w ≠ idleWord ∧ w.getLsbD 31 = false := by
  obtain ⟨rfl, hc⟩ | ⟨hidle, hbit, hc⟩ | ⟨-, hbit, hc⟩ := classify_cases w
  · simp only [hc, reduceCtorEq, exists_false, ne_eq, not_true_eq_false, false_and]
  · exact iff_of_true ⟨_, _, _, _, hc⟩ ⟨hidle, hbit⟩
  · simp only [hc, messageFields, reduceCtorEq, exists_false, hbit, Bool.true_eq_false, and_false]

theorem classify_eq_message_iff (w : Word32) :
    (∃ m c q, classify w = .message m c q) ↔ w.getLsbD 31 = true := by
  obtain ⟨rfl, hc⟩ | ⟨-, hbit, hc⟩ | ⟨-, hbit, hc⟩ := classify_cases w
  · simp only [hc, reduceCtorEq, exists_false, idleWord_firstBit, Bool.false_eq_true]
  · simp only [hc, addressFields, reduceCtorEq, exists_false, hbit, Bool.false_eq_true]
  · exact iff_of_true ⟨_, _, _, hc⟩ hbit

/-- The mask of R73 picks the first bit of the codeword. -/
theorem and_firstBitMask (w : Word32) :
    w &&& 0x80000000#32 = if w.getLsbD 31 = true then 0x80000000#32 else 0#32 :=
  BitVec.and_twoPow w 31

theorem and_firstBitMask_eq_zero_iff (w : Word32) : w &&& 0x80000000#32 = 0#32 ↔ w.getLsbD 31 = false := by
  rw [and_firstBitMask]
  cases w.getLsbD 31 <;> decide

theorem and_firstBitMask_eq_self_iff (w : Word32) :
    w &&& 0x80000000#32 = 0x80000000#32 ↔ w.getLsbD 31 = true := by
  rw [and_firstBitMask]
  cases w.getLsbD 31 <;> decide

/-! CLASSIFY after the encoding (R80). -/

/-- Only an Address whose word is IDLE is lost, and its fields are those of IDLE. -/
theorem classify_enc {x : Codeword} (hx : x ≠ .address 0x3D44E 0 0x0CB 1) : classify (enc x) = x := by
  cases x with
  | idle => exact classify_idleWord
  | message m c q => rw [classify_of_first_bit_one (enc_message_firstBit m c q), messageFields_enc]
  | address a f c q =>
    have hidle : enc (.address a f c q) ≠ idleWord := by
      intro hword
      apply hx
      rw [← addressFields_enc a f c q, hword, addressFields_idleWord]
    rw [classify_of_first_bit_zero hidle (enc_address_firstBit a f c q), addressFields_enc]

theorem classify_enc_addressOfIdle : classify (enc (.address 0x3D44E 0 0x0CB 1)) = .idle := by decide

theorem properCodeword_iff (x : Codeword) : properCodeword x = true ↔ classify (enc x) = x := beq_iff_eq

/-! CWREC (R79). -/

theorem kindOf_ne_three (x : Codeword) : kindOf x ≠ 3 := by
  cases x with
  | idle | address | message => rw [kindOf]; decide

theorem cwRec_raw (x : Codeword) : (cwRec x).extractLsb' 0 32 = enc x := BitVec.extractLsb'_append_eq_right

theorem cwRec_kind (x : Codeword) : (cwRec x).extractLsb' 32 2 = kindOf x := BitVec.extractLsb'_append_eq_left

/-- A slice of the record below the kind is a slice of the raw codeword. -/
theorem cwRec_slice (x : Codeword) {start len : Nat} (h : start + len ≤ 32) :
    (cwRec x).extractLsb' start len = (enc x).extractLsb' start len :=
  BitVec.extractLsb'_append_eq_of_add_le h

theorem cwRec_address_slices (a : BitVec 18) (f : BitVec 2) (c : BitVec 10) (q : BitVec 1) :
    (cwRec (.address a f c q)).extractLsb' 13 18 = a ∧ (cwRec (.address a f c q)).extractLsb' 11 2 = f ∧
    (cwRec (.address a f c q)).extractLsb' 1 10 = c ∧ (cwRec (.address a f c q)).extractLsb' 0 1 = q := by
  simpa only [cwRec_slice, Nat.reduceAdd, Nat.reduceLeDiff] using enc_address_slices a f c q

theorem cwRec_message_slices (m : BitVec 20) (c : BitVec 10) (q : BitVec 1) :
    (cwRec (.message m c q)).extractLsb' 11 20 = m ∧ (cwRec (.message m c q)).extractLsb' 1 10 = c ∧
    (cwRec (.message m c q)).extractLsb' 0 1 = q := by
  simpa only [cwRec_slice, Nat.reduceAdd, Nat.reduceLeDiff] using enc_message_slices m c q

@[simp] theorem cwRecBits_length (x : Codeword) : (cwRecBits x).length = 34 := by
  simp [cwRecBits]

/-- A record is read back by its two parts, the two bits of the kind and the raw codeword. -/
theorem decodeRecord_cwRecBits {x : Codeword} (hx : properCodeword x = true) : decodeRecord (cwRecBits x) = .ok x := by
  have hkind : substr (cwRecBits x) 0 2 = bitsOf 2 (kindOf x).toNat := by simp [substr, cwRecBits]
  have hraw : substr (cwRecBits x) 2 32 = bitsOfWord (enc x) := by simp [substr, cwRecBits]
  have hthree : (kindOf x).toNat ≠ 3 := fun h => kindOf_ne_three x (BitVec.eq_of_toNat_eq h)
  simp [decodeRecord, hkind, hraw, (properCodeword_iff x).mp hx, hthree]

theorem decodeRecords_flatMap {xs : List Codeword} (hxs : xs.all properCodeword = true) :
    decodeRecords xs.length (xs.flatMap cwRecBits) = .ok xs := by
  induction xs with
  | nil => rfl
  | cons x xs ih =>
    rw [List.all_cons, Bool.and_eq_true] at hxs
    obtain ⟨hx, hxs⟩ := hxs
    have htake : ((x :: xs).flatMap cwRecBits).take 34 = cwRecBits x := List.take_left' (cwRecBits_length x)
    have hdrop : ((x :: xs).flatMap cwRecBits).drop 34 = xs.flatMap cwRecBits := List.drop_left' (cwRecBits_length x)
    simp only [List.length_cons, decodeRecords, htake, hdrop, decodeRecord_cwRecBits hx, ih hxs]

/-! Texts (R165). -/

theorem textBits_length (t : Text) : (textBits t).length = 7 * t.length := by
  simp [textBits, List.length_flatMap, Nat.mul_comm]

theorem textOf_textBits (t : Text) : textOf t.length (textBits t) = t := by
  induction t with
  | nil => rfl
  | cons v t ih =>
    have htake : (textBits (v :: t)).take 7 = bitsOf 7 v.toNat := List.take_left' (bitsOf_length 7 _)
    have hdrop : (textBits (v :: t)).drop 7 = textBits t := List.drop_left' (bitsOf_length 7 _)
    rw [List.length_cons, textOf, htake, hdrop, ih, be_bitsOf_toNat, BitVec.ofNat_toNat, BitVec.setWidth_eq]

theorem decodeFormat_formatBits (address : Option (BitVec 18)) (t : Text) :
    decodeFormat (formatBits address t) = .ok (.format address t) := by
  cases address with
  | none => simp [formatBits, decodeFormat, textBits_length, textOf_textBits]
  | some a =>
    have htake : (bitsOf 18 a.toNat ++ textBits t).take 18 = bitsOf 18 a.toNat := List.take_left' (bitsOf_length 18 _)
    have hdrop : (bitsOf 18 a.toNat ++ textBits t).drop 18 = textBits t := List.drop_left' (bitsOf_length 18 _)
    simp [formatBits, decodeFormat, htake, hdrop, textBits_length, textOf_textBits]

/-! The channels of the decoder. -/

theorem decode_offerOf_zero (sel : Selector) (B : Bits) : decode (offerOf sel 0 B) = decodeBits sel 0 B := by
  simp [decode, offerOf, decodeSlot]

theorem decode_offerOf_indexed {sel : Selector} (h : takesIndex sel = true) (i : Nat) (B : Bits) :
    decode (offerOf sel i B) = decodeBits sel i B := by
  simp [decode, offerOf, decodeSlot, h]

/-- At a codeword position every 32 bits are read as the value CLASSIFY gives (R74). -/
theorem decode_codeword {B : Bits} (h : B.length = 32) :
    decode (offerOf .codeword 0 B) = .ok (instrOfCodeword (classify (wordOf B))) := by
  rw [decode_offerOf_zero]
  exact if_pos h

theorem decode_classify (w : Word32) : decode (offerOf .classify 0 (bitsOfWord w)) = .ok (.classify w) := by
  simp [decode_offerOf_zero, decodeBits, decodeWord]

/-- The matcher reads the sync word as SYNC (R76). -/
theorem decode_window_syncBits : decode (offerOf .window 0 syncBits) = .ok .sync := by decide

theorem decode_assemble {xs : List Codeword} (hxs : xs.all properCodeword = true) :
    decode (offerOf .assemble 0 (xs.flatMap cwRecBits)) = .ok (.assemble xs) := by
  have hlength : (xs.flatMap cwRecBits).length = 34 * xs.length := by simp [List.length_flatMap, Nat.mul_comm]
  simp only [decode_offerOf_zero, decodeBits, hlength, Nat.mul_mod_right, if_true,
    Nat.mul_div_cancel_left xs.length (by decide : 0 < 34), decodeRecords_flatMap hxs]

theorem encode_instrOfCodeword (x : Codeword) :
    encode (instrOfCodeword x) = offerOf .codeword 0 (bitsOfWord (enc x)) := by
  cases x with
  | idle => rw [bitsOfWord_enc_idle]; rfl
  | address | message => rfl

/-- The pattern rows of a codeword position are read back as every value CLASSIFY can give. -/
theorem decode_encode_instrOfCodeword {x : Codeword} (hx : properCodeword x = true) :
    decode (encode (instrOfCodeword x)) = .ok (instrOfCodeword x) := by
  rw [encode_instrOfCodeword, decode_codeword (bitsOfWord_length _), wordOf_bitsOfWord, (properCodeword_iff x).mp hx]

theorem decode_encode {i : Instr} (hwf : i.wf = true) : decode (encode i) = .ok i := by
  cases i with
  | sync => exact decode_window_syncBits
  | idle => exact decode_encode_instrOfCodeword (x := .idle) (by decide)
  | address a f c q => exact decode_encode_instrOfCodeword (x := .address a f c q) hwf
  | message m c q =>
    exact decode_encode_instrOfCodeword (x := .message m c q) ((properCodeword_iff _).mpr (classify_enc (by simp)))
  | reset | endStream => rfl
  | addSample | uSame | uEdgeOk | uEdgeBad | uLock | lMid | lSame | lEdgeKeep | lEdgeLose => rfl
  | decode B => exact decode_offerOf_zero .decode B
  | septet mb => exact decode_offerOf_zero .septet mb
  | syncMatch B j =>
    have hinside : j + 32 ≤ B.length := of_decide_eq_true hwf
    exact (decode_offerOf_indexed rfl j B).trans (if_pos hinside)
  | batch B j =>
    have hoccurs : bufRead B j 32 = some syncBits := beq_iff_eq.mp hwf
    exact (decode_offerOf_indexed rfl j B).trans (if_pos hoccurs)
  | slice b =>
    have hlength : b.length = 512 := beq_iff_eq.mp hwf
    exact (decode_offerOf_zero .slice b).trans (if_pos hlength)
  | classify w => exact decode_classify w
  | assemble xs => exact decode_assemble hwf
  | format address t => exact (decode_offerOf_zero .format _).trans (decodeFormat_formatBits address t)

/-! The pattern rows (R75). -/

theorem exec_sync (s : State) : exec .sync s = .next { s with result := .matched true, raised := [] } := rfl

theorem exec_instrOfCodeword (x : Codeword) (s : State) :
    exec (instrOfCodeword x) s = .next { s with result := .codeword x, raised := [] } := by
  cases x with
  | idle | address | message => rfl

/-! Two sync words in one string (R62). -/

/-- No border of the sync word is longer than 1. -/
theorem syncBits_no_border {k : Nat} (hlow : 2 ≤ k) (hhigh : k ≤ 31) : syncBits.take k ≠ syncBits.drop (32 - k) := by
  have hall : ∀ k < 32, 2 ≤ k → syncBits.take k ≠ syncBits.drop (32 - k) := by decide
  exact hall k (Nat.lt_succ_of_le hhigh) hlow

/-- Where two occurrences overlap in `k` bits, these are a border. -/
theorem syncBits_border_of_overlap {B : Bits} {i d : Nat} (hi : occursAt B i) (hj : occursAt B (i + d)) :
    syncBits.take (32 - d) = syncBits.drop d := by
  have hlow : 32 - d ≤ 32 := Nat.sub_le 32 d
  calc syncBits.take (32 - d)
    _ = ((B.drop (i + d)).take 32).take (32 - d) := by rw [← hj, substr]
    _ = (B.drop (i + d)).take (32 - d) := by rw [List.take_take, Nat.min_eq_left hlow]
    _ = ((B.drop i).take 32).drop d := by rw [List.drop_take, List.drop_drop]
    _ = syncBits.drop d := by rw [← hi, substr]

theorem occursAt_distance {B : Bits} {i j : Nat} (hij : i < j) (hi : occursAt B i) (hj : occursAt B j) :
    i + 31 ≤ j := by
  by_contra hclose
  obtain ⟨d, rfl⟩ := Nat.exists_eq_add_of_lt hij
  have hborder := syncBits_border_of_overlap (d := d + 1) hi hj
  have hback : 32 - (32 - (d + 1)) = d + 1 := by omega
  exact syncBits_no_border (k := 32 - (d + 1)) (by omega) (by omega) (by rw [hborder, hback])

end Sys2Proof.Machine
end

section
/-! PROOFS. The statements of 30_encoding.md. -/

namespace Sys2Proof.Proofs

open Sys2Proof Sys2Proof.Machine

/-- Settles O1: by the operation; each channel reads back what `encode` puts on it. -/
theorem decodeReadsBackEveryEncoding : Obligations.DecodeReadsBackEveryEncoding :=
  fun _ hwf => decode_encode hwf

/-- Settles O4: the layouts from the joining of bit strings, the round trip from the fields read out of each layout. -/
theorem classifyReadsBackEveryCodeword : Obligations.ClassifyReadsBackEveryCodeword :=
  ⟨bitsOfWord_enc_idle, bitsOfWord_enc_address, bitsOfWord_enc_message,
    fun n v hv => ⟨be_bitsOf_of_lt hv, bitsOf_length n v⟩, fun _ => classify_enc, classify_enc_addressOfIdle⟩

/-- Settles O5: the fields put back in their places are the word. -/
theorem everyWordIsTheEncodingOfItsClass : Obligations.EveryWordIsTheEncodingOfItsClass := enc_classify

/-- Settles O6: each value of CLASSIFY by its test, and the mask of the first bit. -/
theorem classificationFollowsTheOrderOfTests : Obligations.ClassificationFollowsTheOrderOfTests := by
  intro w
  rw [← idleWord_eq, and_firstBitMask_eq_zero_iff, and_firstBitMask_eq_self_iff]
  exact ⟨classify_eq_idle_iff w, classify_eq_address_iff w, classify_eq_message_iff w, addressFields_idleWord⟩

/-- Settles O9: the row is that of the word's class, and the row gives its class back. -/
theorem everyCodewordRunsAsItsPatternRow : Obligations.EveryCodewordRunsAsItsPatternRow := by
  intro w s
  refine ⟨instrOfCodeword (classify w), ?_, exec_instrOfCodeword (classify w) s⟩
  rw [decode_codeword (bitsOfWord_length w), wordOf_bitsOfWord]

/-- Settles O10: two occurrences nearer than 31 would overlap in a border, and the sync word has none. -/
theorem syncWordOccurrencesAreThirtyOneApart : Obligations.SyncWordOccurrencesAreThirtyOneApart :=
  ⟨rfl, by decide, by decide, fun _ => syncBits_no_border, fun _ _ _ => occursAt_distance⟩

/-- Settles O59: a slice of the record is a slice of the kind or of the raw codeword, and the fields are slices of that. -/
theorem recordCarriesKindAndRawCodeword : Obligations.RecordCarriesKindAndRawCodeword := by
  refine fun x => ⟨cwRec_raw x, cwRec_kind x, kindOf_ne_three x, fun hx => ?proper, ?idle, ?address, ?message⟩
  case proper => rw [(properCodeword_iff x).mp hx]
  case idle =>
    rintro rfl
    exact ⟨rfl, (cwRec_raw .idle).trans idleWord_eq⟩
  case address =>
    rintro a f c q rfl
    exact ⟨rfl, cwRec_address_slices a f c q⟩
  case message =>
    rintro m c q rfl
    exact ⟨rfl, cwRec_message_slices m c q⟩

/-- Settles O8: SYNC by its meaning, the other three as the row of the value they carry. -/
theorem patternRowsGiveTheirValues : Obligations.PatternRowsGiveTheirValues := fun s =>
  ⟨exec_sync s, exec_instrOfCodeword .idle s, fun a f c q => exec_instrOfCodeword (.address a f c q) s,
    fun m c q => exec_instrOfCodeword (.message m c q) s⟩

/-- Settles O11: at a codeword position the word is classified; at the matcher it is the sync word. -/
theorem syncWordIsAnAddressAtACodewordPosition : Obligations.SyncWordIsAnAddressAtACodewordPosition := by
  have hclass : classify 0x7CD215D8#32 = .address 0x3E690 2 0x2EC 0 := by decide
  have hword : wordOf syncBits = 0x7CD215D8#32 := by decide
  refine ⟨hclass, ?_, decode_window_syncBits⟩
  rw [decode_codeword rfl, hword, hclass, instrOfCodeword]

end Sys2Proof.Proofs
end

section
/-! SUPPORT. SYMSYNC (40_symbol_synchronizer.md), the calls: the tests as comparisons, what each call answers as a whole
record, which operations are sample operations, and what one call does to lock and to the conditions. -/

namespace Sys2Proof.Machine

/-! The tests as comparisons. -/

section Comparisons

variable {cfg : Cfg} {c : Nat}

theorem inTolerance_iff : inTolerance cfg c = true ↔ lo cfg ≤ c ∧ c ≤ hi cfg := by
  simp [inTolerance]

theorem inTolerance_eq_false_iff : inTolerance cfg c = false ↔ c < lo cfg ∨ hi cfg < c := by
  rw [Bool.eq_false_iff, Ne, inTolerance_iff]
  omega

theorem tooShort_iff : tooShort cfg c = true ↔ c < lo cfg := decide_eq_true_iff

theorem tooShort_eq_false_iff : tooShort cfg c = false ↔ lo cfg ≤ c := by
  simp [tooShort]

theorem midpoint_iff : midpoint cfg c = true ↔ c % cfg.L = cfg.L / 2 := beq_iff_eq

theorem bufFull_eq_false_iff {st : SymSync} :
    bufFull cfg st = false ↔ ∀ cap, cfg.bufCapacity = some cap → st.buffer.length < cap := by
  cases hc : cfg.bufCapacity <;> simp [bufFull, hc]

end Comparisons

/-! What a call answers (R105 to R114), the midpoint test finding room where it holds. -/

/-- The midpoint test finds room if it holds at all (R54, R111). -/
abbrev MidRoom (cfg : Cfg) (st : SymSync) : Prop := st.sampCount % cfg.L = cfg.L / 2 → bufFull cfg st = false

/-- The buffer after a midpoint test that finds room (R110, R111). -/
def midBuffer (cfg : Cfg) (smp : Bool) (st : SymSync) : Bits :=
  if st.sampCount % cfg.L = cfg.L / 2 then st.buffer ++ [smp] else st.buffer

theorem midFirst_of_midRoom {cfg : Cfg} {smp : Bool} {st : SymSync} (hroom : MidRoom cfg st) :
    midFirst cfg smp st = { st with buffer := midBuffer cfg smp st } := by
  rw [midFirst_of_room fun hm => hroom (midpoint_iff.mp hm)]
  simp only [midBuffer, midpoint_iff]

section Replies

variable {cfg : Cfg} {n : Nat} {smp : Bool} {st : SymSync}

theorem callSample_uSame (hs : st.state = .unlocked) (he : smp = st.last) :
    callSample cfg n smp st =
      { st := { st with sampCount := st.sampCount + 1 }, out := none, raised := [], used := 0 } := by
  rw [callSample_of_selUSame (selUSame_iff.mpr ⟨hs, he⟩), he]
  rfl

theorem callSample_uEdgeBad (hs : st.state = .unlocked) (he : smp ≠ st.last)
    (hc : st.sampCount < lo cfg ∨ hi cfg < st.sampCount) :
    callSample cfg n smp st =
      { st := { st with last := smp, sampCount := 0, preambCount := 0, buffer := [] }
        out := none, raised := [.evDesync], used := 0 } := by
  rw [callSample_of_selUEdgeBad (selUEdgeBad_iff.mpr ⟨hs, he, inTolerance_eq_false_iff.mpr hc⟩)]
  rfl

theorem callSample_uEdgeOk (hs : st.state = .unlocked) (he : smp ≠ st.last) (hlo : lo cfg ≤ st.sampCount)
    (hhi : st.sampCount ≤ hi cfg) (ho : st.ovf = false) (hroom : bufFull cfg st = false)
    (hK : st.preambCount + 1 ≠ cfg.K) :
    callSample cfg n smp st =
      { st := { st with
          last := smp, sampCount := 0, preambCount := st.preambCount + 1, buffer := st.buffer ++ [st.last] }
        out := none, raised := [], used := 0 } := by
  rw [callSample_of_selUEdgeOk (selUEdgeOk_iff.mpr ⟨hs, he, inTolerance_iff.mpr ⟨hlo, hhi⟩⟩)]
  simp [callUEdgeOk, actUEdgeOk_of_room hroom, hK, overflowRaised, setLast, ho]

theorem callSample_uLock (hs : st.state = .unlocked) (he : smp ≠ st.last) (hlo : lo cfg ≤ st.sampCount)
    (hhi : st.sampCount ≤ hi cfg) (ho : st.ovf = false) (hroom : bufFull cfg st = false)
    (hK : st.preambCount + 1 = cfg.K) :
    callSample cfg n smp st =
      { st := { st with
          state := .locked, last := smp, sampCount := 0, preambCount := 0
          buffer := if cfg.keepPreamble then st.buffer ++ [st.last] else [] }
        out := none, raised := [.evLock], used := 0 } := by
  have hok := selUEdgeOk_iff.mpr ⟨hs, he, inTolerance_iff.mpr ⟨hlo, hhi⟩⟩
  rw [callSample_of_selULock (selULock_iff.mpr ⟨hok, hK⟩)]
  simp [callULock, actUEdgeOk_of_room hroom, overflowRaised, actULock, acquireLock, setLast, ho]

theorem callSample_lSame (hs : st.state = .locked) (he : smp = st.last) (ho : st.ovf = false)
    (hroom : MidRoom cfg st) :
    callSample cfg n smp st =
      { st := { st with sampCount := st.sampCount + 1, buffer := midBuffer cfg smp st }
        out := none, raised := [], used := 0 } := by
  rw [callSample_of_selLSame (selLSame_iff.mpr ⟨hs, he⟩), midFirst_of_midRoom hroom, he]
  simp [closeLSame, overflowRaised, actLSame, countSample, setLast, ho]

theorem callSample_lEdgeKeep (hs : st.state = .locked) (he : smp ≠ st.last) (hlo : lo cfg ≤ st.sampCount)
    (ho : st.ovf = false) (hroom : MidRoom cfg st) :
    callSample cfg n smp st =
      { st := { st with last := smp, sampCount := 0, buffer := midBuffer cfg smp st }
        out := none, raised := [], used := 0 } := by
  rw [callSample_of_selLEdgeKeep (selLEdgeKeep_iff.mpr ⟨hs, he, tooShort_eq_false_iff.mpr hlo⟩),
    midFirst_of_midRoom hroom]
  simp [closeLEdgeKeep, overflowRaised, actLEdgeKeep, restartRun, setLast, ho]

theorem callSample_lEdgeLose (hs : st.state = .locked) (he : smp ≠ st.last) (hlo : st.sampCount < lo cfg)
    (ho : st.ovf = false) (hroom : MidRoom cfg st) :
    callSample cfg n smp st =
      { st := { st with state := .unlocked, last := smp, sampCount := 0, preambCount := 0, buffer := [] }
        out := some (midBuffer cfg smp st), raised := [.evLockLoss], used := 0 } := by
  rw [callSample_of_selLEdgeLose (selLEdgeLose_iff.mpr ⟨hs, he, tooShort_iff.mpr hlo⟩), midFirst_of_midRoom hroom]
  simp [closeLEdgeLose, lossEmission, overflowRaised, actLEdgeLose, loseLock, setLast, ho]

end Replies

/-- While samples are accepted ADDSAMPLE answers with the reply of its call. -/
theorem exec_addSample_of_callSample {s : State} {raw : Bool} {p : Reply} (hacc : Accepting s)
    (hcall : callSample s.cfg s.freeCount (corrected s.cfg raw) s.st = p) :
    exec (.addSample raw) s = .next { s with
      st := p.st, result := .emission p.out, raised := p.raised, freeCount := s.freeCount + p.used } := by
  rw [← hcall]
  exact exec_addSample_of_accepting hacc raw

/-! The arms as operations (R102). -/

/-- An arm whose selecting condition holds is the ADDSAMPLE call, when under that condition the two calls are one. -/
theorem exec_arm_of_selected {s : State} {raw sel : Bool} {p : Reply} (hsel : sel = true)
    (hcall : sel = true → callSample s.cfg s.freeCount (corrected s.cfg raw) s.st = p) :
    takeReply s (if sel then some p else none) = exec (.addSample raw) s := by
  rw [if_pos hsel, ← hcall hsel]
  rfl

/-- At a midpoint L_MID is the ADDSAMPLE call, whichever arm ends it (R110, R111). -/
theorem exec_lMid_of_midpoint {s : State} {raw : Bool} (hs : s.st.state = .locked)
    (hm : s.st.sampCount % s.cfg.L = s.cfg.L / 2) : exec (.lMid raw) s = exec (.addSample raw) s :=
  exec_arm_of_selected (selLMid_iff.mpr ⟨hs, midpoint_iff.mpr hm⟩) callSample_of_selLMid

/-- An arm is the ADDSAMPLE call when it is selected and is refused when it is not. -/
theorem exec_arm_by_selection {s : State} {raw sel : Bool} {p : Reply} {P : Prop} (hacc : Accepting s)
    (hP : P ↔ sel = true)
    (hcall : sel = true → callSample s.cfg s.freeCount (corrected s.cfg raw) s.st = p) :
    (P → takeReply s (if sel then some p else none) = exec (.addSample raw) s) ∧
      (¬ P → takeReply s (if sel then some p else none) = .refused .armNotSelected) := by
  refine ⟨fun h => exec_arm_of_selected (hP.mp h) hcall, fun h => ?_⟩
  rw [if_neg fun hsel => h (hP.mpr hsel), takeReply_none_of_accepting hacc]

/-! What stops every sample operation alike (R115, R186). -/

/-- ADDSAMPLE and its eight arms. -/
def sampleOps (raw : Bool) : List Instr :=
  [.addSample raw, .uSame raw, .uEdgeOk raw, .uEdgeBad raw, .uLock raw, .lMid raw, .lSame raw, .lEdgeKeep raw,
    .lEdgeLose raw]

theorem exists_takeReply_of_mem_sampleOps {raw : Bool} {i : Instr} (h : i ∈ sampleOps raw) (s : State) :
    ∃ r, exec i s = takeReply s r := by
  simp only [sampleOps, List.mem_cons, List.not_mem_nil, or_false] at h
  rcases h with rfl | rfl | rfl | rfl | rfl | rfl | rfl | rfl | rfl
  · exact ⟨some (callSample s.cfg s.freeCount (corrected s.cfg raw) s.st), rfl⟩
  all_goals exact ⟨_, rfl⟩

theorem takeReply_of_ended {s : State} (ha : admitted s.cfg = true) (he : s.ended = true) (r : Option Reply) :
    takeReply s r = .refused .streamEnded := by
  simp [takeReply, ha, he]

theorem takeReply_of_ovf {s : State} (ha : admitted s.cfg = true) (he : s.ended = false) (ho : s.st.ovf = true)
    (r : Option Reply) : takeReply s r = .fault .bufferOverflow := by
  simp [takeReply, ha, he, ho]

/-! A midpoint on a full buffer (R116, R186). -/

/-- The end of a Locked call in which the midpoint test has overflowed: the condition comes first, and a call that keeps
lock leaves the buffer and emits nothing. -/
theorem closeLocked_of_ovf (cfg : Cfg) (n : Nat) (smp : Bool) (entry : SymSync) {st : SymSync} (ho : st.ovf = true) :
    let p := closeLocked cfg n smp entry st
    p.st.ovf = true ∧ p.raised.head? = some .faultOverflow ∧ p.st.last = smp ∧
      (p.st.state = .locked → p.st.buffer = st.buffer ∧ p.out = none) := by
  simp only [closeLocked]
  split
  · simp [closeLSame, actLSame, overflowRaised, ho]
  split
  · simp [closeLEdgeLose, actLEdgeLose, overflowRaised, ho]
  · simp [closeLEdgeKeep, actLEdgeKeep, overflowRaised, ho]

/-! Lock and conditions in one call (R121, R182, R183). -/

/-- A call without overflow acquires lock, or loses it with an emission, or neither; and it loses it exactly on an edge
that comes too soon. -/
inductive LockChange (cfg : Cfg) (smp : Bool) (st : SymSync) (p : Reply) : Prop where
  | acquired (hs : st.state = .unlocked) (hs' : p.st.state = .locked) (hout : p.out = none)
      (hraised : p.raised = [.evLock])
  | lost (hsel : selLEdgeLose cfg st smp = true) (hs' : p.st.state = .unlocked) (B : Bits) (hout : p.out = some B)
      (hraised : p.raised = [.evLockLoss])
  | kept (hsel : selLEdgeLose cfg st smp = false) (hs' : p.st.state = st.state) (hout : p.out = none)
      (hlock : Cond.evLock ∉ p.raised) (hloss : Cond.evLockLoss ∉ p.raised)

theorem evLock_not_mem_overflowRaised (st : SymSync) : Cond.evLock ∉ overflowRaised st := by
  unfold overflowRaised; split <;> simp

theorem evLockLoss_not_mem_overflowRaised (st : SymSync) : Cond.evLockLoss ∉ overflowRaised st := by
  unfold overflowRaised; split <;> simp

theorem selLEdgeLose_of_unlocked {cfg : Cfg} {smp : Bool} {st : SymSync} (hs : st.state = .unlocked) :
    selLEdgeLose cfg st smp = false := by
  simp [selLEdgeLose, hs]

theorem callUEdgeOk_lockChange {cfg : Cfg} {smp : Bool} {st : SymSync} (hs : st.state = .unlocked)
    (ho : (callUEdgeOk cfg smp st).st.ovf = false) : LockChange cfg smp st (callUEdgeOk cfg smp st) := by
  unfold callUEdgeOk at ho ⊢
  dsimp only at ho ⊢
  split at ho
  · next hK =>
    rw [if_pos hK]
    have ho' : (actUEdgeOk cfg st).ovf = false := ho
    exact .acquired hs rfl rfl (by simp [callULock, overflowRaised, ho'])
  · next hK =>
    rw [if_neg hK]
    exact .kept (selLEdgeLose_of_unlocked hs) (bufAppend_state cfg st.last st) rfl (evLock_not_mem_overflowRaised _)
      (evLockLoss_not_mem_overflowRaised _)

theorem callSample_lockChange {cfg : Cfg} {n : Nat} {smp : Bool} {st : SymSync}
    (ho : (callSample cfg n smp st).st.ovf = false) : LockChange cfg smp st (callSample cfg n smp st) := by
  rcases callSample_cases cfg n smp st with
    ⟨hsel, e⟩ | ⟨hsel, e⟩ | ⟨hsel, e⟩ | ⟨hsel, e⟩ | ⟨hsel, e⟩ | ⟨hsel, e⟩ <;> rw [e] at ho ⊢
  · obtain ⟨hs, -⟩ := selUSame_iff.mp hsel
    exact .kept (selLEdgeLose_of_unlocked hs) rfl rfl (by simp [callUSame]) (by simp [callUSame])
  · obtain ⟨hs, -⟩ := selUEdgeOk_iff.mp hsel
    exact callUEdgeOk_lockChange hs ho
  · obtain ⟨hs, -⟩ := selUEdgeBad_iff.mp hsel
    exact .kept (selLEdgeLose_of_unlocked hs) rfl rfl (by simp [callUEdgeBad]) (by simp [callUEdgeBad])
  · obtain ⟨-, he⟩ := selLSame_iff.mp hsel
    exact .kept (by simp [selLEdgeLose, edge, he]) (midFirst_state cfg smp st) rfl (evLock_not_mem_overflowRaised _)
      (evLockLoss_not_mem_overflowRaised _)
  · obtain ⟨-, -, ht⟩ := selLEdgeKeep_iff.mp hsel
    exact .kept (by simp [selLEdgeLose, ht]) (midFirst_state cfg smp st) rfl (evLock_not_mem_overflowRaised _)
      (evLockLoss_not_mem_overflowRaised _)
  · have ho' : (midFirst cfg smp st).ovf = false := ho
    exact .lost hsel rfl (midFirst cfg smp st).buffer (by simp [closeLEdgeLose, lossEmission, ho'])
      (by simp [closeLEdgeLose, overflowRaised, ho'])

/-- While Unlocked, with room in the buffer, no call overflows (R116). -/
theorem callSample_of_unlocked_room {cfg : Cfg} {n : Nat} {smp : Bool} {st : SymSync} (hs : st.state = .unlocked)
    (ho : st.ovf = false) (hroom : bufFull cfg st = false) :
    (callSample cfg n smp st).st.ovf = false ∧ Cond.faultOverflow ∉ (callSample cfg n smp st).raised := by
  by_cases he : smp = st.last
  · simp [callSample_uSame hs he, ho]
  by_cases hc : lo cfg ≤ st.sampCount ∧ st.sampCount ≤ hi cfg
  · obtain ⟨hlo, hhi⟩ := hc
    by_cases hK : st.preambCount + 1 = cfg.K
    · simp [callSample_uLock hs he hlo hhi ho hroom hK, ho]
    · simp [callSample_uEdgeOk hs he hlo hhi ho hroom hK, ho]
  · have hbad : st.sampCount < lo cfg ∨ hi cfg < st.sampCount := by omega
    simp [callSample_uEdgeBad hs he hbad, ho]

end Sys2Proof.Machine
end

section
/-! SUPPORT. SYMSYNC (40_symbol_synchronizer.md), streams: emissions against lock sessions, the two polarities,
how many midpoints a run has, and where a stream of corrected samples leads from a record. -/

namespace Sys2Proof.Machine

/-! The stream, sample by sample. -/

@[simp] theorem emitted_emission (out : Option Bits) : emitted (.emission out) = out.toList := by
  cases out <;> rfl

/-- If a stream is taken, so was its first sample, and then the rest of it. -/
theorem feed_cons_inv {x : Bool} {xs : List Bool} {s : State} {tr : Trace} (h : feed (x :: xs) s = some tr) :
    Accepting s ∧ ∃ tr', feed xs (afterSample x s) = some tr' ∧
      tr = { tr' with
        emissions := emitted (afterSample x s).result ++ tr'.emissions
        conds := (afterSample x s).raised ++ tr'.conds } := by
  cases hx : exec (.addSample x) s with
  | next t =>
    obtain ⟨hacc, rfl⟩ := exec_addSample_next hx
    rw [feed_cons hx] at h
    obtain ⟨tr', htr', rfl⟩ := Option.map_eq_some_iff.mp h
    exact ⟨hacc, tr', htr', rfl⟩
  | fault r => simp [feed, hx] at h
  | refused r => simp [feed, hx] at h

theorem feed_append {xs ys : List Bool} {s : State} {tr tr' : Trace} (h : feed xs s = some tr)
    (h' : feed ys tr.final = some tr') :
    feed (xs ++ ys) s = some
      { tr' with emissions := tr.emissions ++ tr'.emissions, conds := tr.conds ++ tr'.conds } := by
  induction xs generalizing s tr with
  | nil => cases h; exact h'
  | cons x xs ih =>
    obtain ⟨hacc, tr₁, htr₁, rfl⟩ := feed_cons_inv h
    rw [List.cons_append, feed_cons_some (exec_addSample_of_accepting hacc x) (ih htr₁ h')]
    simp only [List.append_assoc]

/-- An overflow stays until the end of the stream (R116). -/
theorem ovf_eq_false_of_feed {xs : List Bool} {s : State} {tr : Trace} (h : feed xs s = some tr)
    (ho : tr.final.st.ovf = false) : s.st.ovf = false := by
  cases xs with
  | nil => cases h; exact ho
  | cons x xs =>
    obtain ⟨⟨-, -, hovf⟩, -⟩ := feed_cons_inv h
    exact hovf

/-- With an unbounded buffer every stream is taken, and nothing overflows (R116). -/
theorem exists_feed_of_unbounded (xs : List Bool) {s : State} (hacc : Accepting s) (hc : s.cfg.bufCapacity = none) :
    ∃ tr, feed xs s = some tr ∧ tr.final.st.ovf = false := by
  induction xs generalizing s with
  | nil =>
    obtain ⟨-, -, ho⟩ := hacc
    exact ⟨_, rfl, ho⟩
  | cons x xs ih =>
    obtain ⟨tr, htr, ho⟩ := ih (afterSample_accepting hacc hc x) hc
    exact ⟨_, feed_cons_some (exec_addSample_of_accepting hacc x) htr, ho⟩

/-! Emissions against lock sessions (R121). -/

/-- The lock sessions open in a control state: one while Locked. -/
def openSessions : LockState → Nat
  | .locked => 1
  | .unlocked => 0

theorem openSessions_eq_ite (l : LockState) : openSessions l = if l = .locked then 1 else 0 := by
  cases l <;> rfl

/-- What one call without overflow does to the three counts. -/
theorem LockChange.counts {cfg : Cfg} {smp : Bool} {st : SymSync} {p : Reply} (h : LockChange cfg smp st p) :
    p.out.toList.length = p.raised.count .evLockLoss ∧
      p.raised.count .evLock + openSessions st.state = p.out.toList.length + openSessions p.st.state := by
  cases h with
  | acquired hs hs' hout hraised => simp [hs, hs', hout, hraised, openSessions]
  | lost hsel hs' B hout hraised =>
    obtain ⟨hs, -⟩ := selLEdgeLose_iff.mp hsel
    simp [hs, hs', hout, hraised, openSessions]
  | kept hsel hs' hout hlock hloss =>
    simp [hs', hout, List.count_eq_zero_of_not_mem hlock, List.count_eq_zero_of_not_mem hloss]

/-- Over a stream that ends without overflow every emission is a lock loss, and the sessions opened, with the one open
at the start, are the sessions closed and the one open at the end. -/
theorem feed_counts {xs : List Bool} {s : State} {tr : Trace} (h : feed xs s = some tr)
    (ho : tr.final.st.ovf = false) :
    tr.emissions.length = tr.conds.count .evLockLoss ∧
      tr.conds.count .evLock + openSessions s.st.state = tr.emissions.length + openSessions tr.final.st.state := by
  induction xs generalizing s tr with
  | nil => cases h; simp
  | cons x xs ih =>
    obtain ⟨-, tr', htr', rfl⟩ := feed_cons_inv h
    obtain ⟨hloss, hlock⟩ := ih htr' ho
    obtain ⟨hloss₁, hlock₁⟩ := (callSample_lockChange (ovf_eq_false_of_feed htr' ho)).counts
    simp only [afterSample, emitted_emission, List.length_append, List.count_append] at hlock ⊢
    omega

/-! The two polarities (R101). -/

/-- The same state under the other polarity. -/
def flipInv (s : State) : State := { s with cfg := { s.cfg with inv := !s.cfg.inv } }

theorem accepting_flipInv {s : State} : Accepting (flipInv s) ↔ Accepting s := Iff.rfl

/-- The complemented sample is the same corrected sample, and no call reads `inv`. -/
theorem afterSample_flipInv (x : Bool) (s : State) : afterSample (!x) (flipInv s) = flipInv (afterSample x s) := by
  have hsmp : corrected (flipInv s).cfg (!x) = corrected s.cfg x := by simp [corrected, flipInv]
  unfold afterSample
  rw [hsmp]
  rfl

theorem feed_cons_of_not_accepting {s : State} (h : ¬ Accepting s) (x : Bool) (xs : List Bool) :
    feed (x :: xs) s = none := by
  cases htr : feed (x :: xs) s with
  | none => rfl
  | some tr =>
    obtain ⟨hacc, -⟩ := feed_cons_inv htr
    exact absurd hacc h

/-- The same trace under the other polarity. -/
def Trace.flipInv (tr : Trace) : Trace := { tr with final := Machine.flipInv tr.final }

theorem feed_flipInv (xs : List Bool) (s : State) :
    feed (xs.map fun x => !x) (flipInv s) = (feed xs s).map Trace.flipInv := by
  induction xs generalizing s with
  | nil => rfl
  | cons x xs ih =>
    by_cases hacc : Accepting s
    · rw [List.map_cons, feed_cons (exec_addSample_of_accepting (accepting_flipInv.mpr hacc) (!x)),
        feed_cons (exec_addSample_of_accepting hacc x), afterSample_flipInv, ih, Option.map_map, Option.map_map]
      rfl
    · rw [List.map_cons, feed_cons_of_not_accepting hacc, feed_cons_of_not_accepting (mt accepting_flipInv.mp hacc)]
      rfl

/-! The midpoints of a run (R120). -/

/-- The number of midpoints among `n` counts from `c` on. -/
def midsFrom (cfg : Cfg) (c n : Nat) : Nat := (List.range n).countP fun k => midpoint cfg (c + k)

@[simp] theorem midsFrom_zero_right (cfg : Cfg) (c : Nat) : midsFrom cfg c 0 = 0 := rfl

theorem midsFrom_zero_left (cfg : Cfg) (n : Nat) : midsFrom cfg 0 n = midCount cfg n := by
  simp [midsFrom, midCount]

theorem midsFrom_succ (cfg : Cfg) (c n : Nat) :
    midsFrom cfg c (n + 1) = midsFrom cfg c n + if (c + n) % cfg.L = cfg.L / 2 then 1 else 0 := by
  simp [midsFrom, List.range_succ, List.countP_append, List.countP_singleton, midpoint_iff]

theorem midsFrom_le_succ (cfg : Cfg) (c n : Nat) : midsFrom cfg c n ≤ midsFrom cfg c (n + 1) := by
  rw [midsFrom_succ]
  exact Nat.le_add_right _ _

theorem half_lt_L {cfg : Cfg} (hL : 1 ≤ cfg.L) : half cfg < cfg.L := Nat.div_lt_self hL one_lt_two

/-- A count is a midpoint when it falls short of the next multiple of `L` by `L - h`. -/
theorem dvd_add_sub_half_iff {cfg : Cfg} (hL : 1 ≤ cfg.L) (c : Nat) :
    cfg.L ∣ c + (cfg.L - half cfg) ↔ c % cfg.L = cfg.L / 2 := by
  have hh := half_lt_L hL
  have hsum : half cfg + (cfg.L - half cfg) ≡ 0 [MOD cfg.L] := by
    rw [Nat.add_sub_cancel' hh.le]
    exact (Nat.modEq_zero_iff_dvd).mpr dvd_rfl
  calc cfg.L ∣ c + (cfg.L - half cfg)
      ↔ c + (cfg.L - half cfg) ≡ half cfg + (cfg.L - half cfg) [MOD cfg.L] := by
        rw [← Nat.modEq_zero_iff_dvd]
        exact ⟨fun h => h.trans hsum.symm, fun h => h.trans hsum⟩
    _ ↔ c ≡ half cfg [MOD cfg.L] := Nat.ModEq.add_iff_right rfl
    _ ↔ c % cfg.L = cfg.L / 2 := by rw [Nat.ModEq, Nat.mod_eq_of_lt hh, half]

/-- Midpoints come once every `L` counts, the first at count `h`. -/
theorem midCount_eq_div {cfg : Cfg} (hL : 1 ≤ cfg.L) (r : Nat) :
    midCount cfg r = (r + (cfg.L - 1 - half cfg)) / cfg.L := by
  have hh := half_lt_L hL
  induction r with
  | zero => rw [Nat.div_eq_of_lt (by omega)]; rfl
  | succ r ih =>
    have hnext : r + 1 + (cfg.L - 1 - half cfg) = r + (cfg.L - 1 - half cfg) + 1 := by omega
    have hdvd : r + (cfg.L - 1 - half cfg) + 1 = r + (cfg.L - half cfg) := by omega
    rw [← midsFrom_zero_left, midsFrom_succ, midsFrom_zero_left, ih, hnext, Nat.succ_div, hdvd, zero_add]
    simp only [dvd_add_sub_half_iff hL]

theorem midCount_of_le_half {cfg : Cfg} (hL : 1 ≤ cfg.L) {r : Nat} (hr : r ≤ half cfg) : midCount cfg r = 0 := by
  have hh := half_lt_L hL
  rw [midCount_eq_div hL, Nat.div_eq_of_lt (by omega)]

/-- A run that ends within half a symbol of `m` symbols has `m` midpoints. -/
theorem midCount_eq_of_bounds {cfg : Cfg} (hL : 1 ≤ cfg.L) {r m : Nat} (hlo : m * cfg.L ≤ r + (cfg.L - 1 - half cfg))
    (hhi : r ≤ m * cfg.L + half cfg) : midCount cfg r = m := by
  have hh := half_lt_L hL
  rw [midCount_eq_div hL]
  refine Nat.div_eq_of_lt_le hlo ?_
  rw [Nat.succ_mul]
  omega

/-! Where a stream leads. -/

/-- From every accepting state with the record `st` the corrected samples `xs` are all taken; they lead to the record
`st'`, still accepting, with these emissions and conditions. -/
def Leads (cfg : Cfg) (xs : List Bool) (st st' : SymSync) (es : List Bits) (cs : List Cond) : Prop :=
  ∀ s : State, s.cfg = cfg → s.st = st → Accepting s → ∃ t : State,
    feed (rawStream cfg xs) s = some { final := t, emissions := es, conds := cs } ∧
      t.cfg = cfg ∧ t.st = st' ∧ Accepting t

theorem Leads.exists_feed {s : State} {xs : List Bool} {st' : SymSync} {es : List Bits} {cs : List Cond}
    (h : Leads s.cfg xs s.st st' es cs) (hacc : Accepting s) :
    ∃ tr, feed (rawStream s.cfg xs) s = some tr ∧ tr.final.st = st' ∧ tr.emissions = es ∧ tr.conds = cs := by
  obtain ⟨t, htr, -, hst, -⟩ := h s rfl rfl hacc
  exact ⟨_, htr, hst, rfl, rfl⟩

theorem Leads.nil (cfg : Cfg) (st : SymSync) : Leads cfg [] st st [] [] :=
  fun s hcfg hst hacc => ⟨s, rfl, hcfg, hst, hacc⟩

theorem corrected_raw (cfg : Cfg) (x : Bool) : corrected cfg (x ^^ cfg.inv) = x := by
  simp [corrected]

/-- One sample leads where its call does, if that does not overflow; the rest of the stream goes on from there. -/
theorem Leads.cons {cfg : Cfg} {x : Bool} {xs : List Bool} {st st' : SymSync} {es : List Bits} {cs : List Cond}
    {p : Reply} (hcall : ∀ n, callSample cfg n x st = p) (ho : p.st.ovf = false)
    (hrest : Leads cfg xs p.st st' es cs) : Leads cfg (x :: xs) st st' (p.out.toList ++ es) (p.raised ++ cs) := by
  rintro s rfl rfl hacc
  have ⟨ha, he, _⟩ := hacc
  have hraw : callSample s.cfg s.freeCount (corrected s.cfg (x ^^ s.cfg.inv)) s.st = p := by
    rw [corrected_raw, hcall]
  obtain ⟨t, htr, ht⟩ := hrest
    { s with st := p.st, result := .emission p.out, raised := p.raised, freeCount := s.freeCount + p.used }
    rfl rfl ⟨ha, he, ho⟩
  refine ⟨t, ?_, ht⟩
  rw [rawStream, List.map_cons]
  refine (feed_cons_some (exec_addSample_of_callSample hacc hraw) htr).trans ?_
  rw [emitted_emission]

theorem Leads.single {cfg : Cfg} {x : Bool} {st : SymSync} {p : Reply} (hcall : ∀ n, callSample cfg n x st = p)
    (ho : p.st.ovf = false) : Leads cfg [x] st p.st p.out.toList p.raised := by
  simpa using Leads.cons hcall ho (Leads.nil cfg p.st)

theorem Leads.append {cfg : Cfg} {xs ys : List Bool} {st st₁ st₂ : SymSync} {es es' : List Bits} {cs cs' : List Cond}
    (h : Leads cfg xs st st₁ es cs) (h' : Leads cfg ys st₁ st₂ es' cs') :
    Leads cfg (xs ++ ys) st st₂ (es ++ es') (cs ++ cs') := by
  intro s hcfg hst hacc
  obtain ⟨t, htr, htcfg, htst, htacc⟩ := h s hcfg hst hacc
  obtain ⟨u, hur, hu⟩ := h' t htcfg htst htacc
  refine ⟨u, ?_, hu⟩
  rw [rawStream, List.map_append]
  exact feed_append htr hur

/-! A held level (R105, R112, R219). -/

theorem leads_held_unlocked (cfg : Cfg) {st : SymSync} (hs : st.state = .unlocked) (ho : st.ovf = false) (n : Nat) :
    Leads cfg (List.replicate n st.last) st { st with sampCount := st.sampCount + n } [] [] := by
  induction n with
  | zero => exact Leads.nil cfg st
  | succ n ih =>
    rw [List.replicate_succ']
    have hcall (k : Nat) :=
      callSample_uSame (cfg := cfg) (n := k) (st := { st with sampCount := st.sampCount + n }) hs rfl
    exact ih.append (Leads.single hcall ho)

/-- If any of `m` bits more is to be appended, the buffer has room for all of them (R54). -/
def RoomFor (cfg : Cfg) (st : SymSync) (m : Nat) : Prop :=
  0 < m → ∀ cap, cfg.bufCapacity = some cap → st.buffer.length + m ≤ cap

theorem RoomFor.mono {cfg : Cfg} {st : SymSync} {m m' : Nat} (h : RoomFor cfg st m) (hm : m' ≤ m) :
    RoomFor cfg st m' :=
  fun hpos cap hcap => (Nat.add_le_add_left hm _).trans (h (hpos.trans_le hm) cap hcap)

/-- A Locked record after `n` samples more of the level held. -/
def heldLocked (cfg : Cfg) (st : SymSync) (n : Nat) : SymSync :=
  { st with
    sampCount := st.sampCount + n
    buffer := st.buffer ++ List.replicate (midsFrom cfg st.sampCount n) st.last }

theorem midBuffer_heldLocked (cfg : Cfg) (st : SymSync) (n : Nat) :
    midBuffer cfg st.last (heldLocked cfg st n) =
      st.buffer ++ List.replicate (midsFrom cfg st.sampCount (n + 1)) st.last := by
  rw [midsFrom_succ]
  simp only [midBuffer, heldLocked]
  by_cases hm : (st.sampCount + n) % cfg.L = cfg.L / 2
  · simp [hm, List.replicate_succ']
  · simp [hm]

theorem midRoom_heldLocked {cfg : Cfg} {st : SymSync} {n : Nat}
    (hroom : RoomFor cfg st (midsFrom cfg st.sampCount (n + 1))) : MidRoom cfg (heldLocked cfg st n) := by
  intro hm
  have hmids : midsFrom cfg st.sampCount (n + 1) = midsFrom cfg st.sampCount n + 1 := by
    rw [midsFrom_succ]
    exact congrArg _ (if_pos hm)
  rw [bufFull_eq_false_iff]
  intro cap hcap
  have hlen := hroom (by omega) cap hcap
  simp only [heldLocked, List.length_append, List.length_replicate]
  omega

theorem leads_held_locked {cfg : Cfg} {st : SymSync} (hs : st.state = .locked) (ho : st.ovf = false) {n : Nat}
    (hroom : RoomFor cfg st (midsFrom cfg st.sampCount n)) :
    Leads cfg (List.replicate n st.last) st (heldLocked cfg st n) [] [] := by
  induction n with
  | zero => simpa [heldLocked] using Leads.nil cfg st
  | succ n ih =>
    have hbefore := ih (hroom.mono (midsFrom_le_succ cfg st.sampCount n))
    have hcall : ∀ k, callSample cfg k st.last (heldLocked cfg st n) =
        { st := heldLocked cfg st (n + 1), out := none, raised := [], used := 0 } := fun k => by
      rw [callSample_lSame (smp := st.last) (st := heldLocked cfg st n) hs rfl ho (midRoom_heldLocked hroom),
        midBuffer_heldLocked]
      rfl
    rw [List.replicate_succ']
    exact hbefore.append (Leads.single hcall ho)

/-! The preamble (R119, R218). -/

/-- A preamble in progress: `p` valid runs are counted, and the run of level `v` now under way would be valid if it
ended. -/
def InPreamble (cfg : Cfg) (p : Nat) (v : Bool) (st : SymSync) : Prop :=
  st.state = .unlocked ∧ st.ovf = false ∧ st.last = v ∧ st.preambCount = p ∧ st.buffer.length = p ∧
    lo cfg ≤ st.sampCount ∧ st.sampCount ≤ hi cfg

/-- While fewer than `K` bits are held there is room in every admitted capacity (R116). -/
theorem bufFull_eq_false_of_length_lt {cfg : Cfg} (ha : admitted cfg = true) {st : SymSync}
    (h : st.buffer.length < cfg.K) : bufFull cfg st = false := by
  obtain ⟨-, -, -, hcap⟩ := admitted_iff.mp ha
  exact bufFull_eq_false_iff.mpr fun cap hc => h.trans_le (hcap cap hc)

/-- With `L * tol >= 1` a run counted one short of `L` is within tolerance. -/
theorem lo_le_L_sub_one {cfg : Cfg} (ha : admitted cfg = true) (hmargin : cfg.tolDen ≤ cfg.L * cfg.tolNum) :
    lo cfg ≤ cfg.L - 1 := by
  rw [lo_le_iff (tolDen_pos ha), Nat.mul_sub, Nat.mul_sub, Nat.mul_comm cfg.tolDen cfg.L, Nat.mul_one]
  exact Nat.sub_le_sub_left hmargin _

section Preamble

variable {cfg : Cfg} (ha : admitted cfg = true) (hmargin : cfg.tolDen ≤ cfg.L * cfg.tolNum)
include ha

/-- A run of `L` samples that begins with an edge ends with a count of `L - 1`, its edge sample not counted (R106). -/
theorem leads_run_after_edge {v : Bool} {st : SymSync} {p : Reply} (hcall : ∀ n, callSample cfg n v st = p)
    (hs : p.st.state = .unlocked) (ho : p.st.ovf = false) (hv : p.st.last = v) (hc : p.st.sampCount = 0) :
    Leads cfg (List.replicate cfg.L v) st { p.st with sampCount := cfg.L - 1 } p.out.toList p.raised := by
  obtain ⟨hL, -, -, -⟩ := admitted_iff.mp ha
  obtain ⟨n, hn⟩ := Nat.exists_eq_add_of_le' hL
  have hheld := leads_held_unlocked cfg hs ho n
  rw [hc, zero_add] at hheld
  subst hv
  rw [hn, List.replicate_succ, Nat.add_sub_cancel]
  simpa using Leads.cons hcall ho hheld

include hmargin

theorem exists_leads_validRun {p : Nat} {v : Bool} {st : SymSync} (h : InPreamble cfg p v st) (hp : p + 1 < cfg.K) :
    ∃ st', Leads cfg (List.replicate cfg.L (!v)) st st' [] [] ∧ InPreamble cfg (p + 1) (!v) st' := by
  obtain ⟨hs, ho, rfl, rfl, hlen, hlo, hhi⟩ := h
  have hroom := bufFull_eq_false_of_length_lt ha (st := st) (by omega)
  have hcall (n : Nat) := callSample_uEdgeOk (n := n) hs (Bool.not_ne_self st.last) hlo hhi ho hroom hp.ne
  refine ⟨_, leads_run_after_edge ha hcall hs ho rfl rfl, hs, ho, rfl, rfl, ?_, lo_le_L_sub_one ha hmargin,
    (Nat.sub_le _ _).trans (L_le_hi ha)⟩
  simp [hlen]

theorem exists_leads_runs {k p : Nat} {v : Bool} {st : SymSync} (h : InPreamble cfg p v st) (hp : p + k < cfg.K) :
    ∃ st', Leads cfg (runs k cfg.L (!v)) st st' [] [] ∧ InPreamble cfg (p + k) (not^[k] v) st' := by
  induction k generalizing p v st with
  | zero => exact ⟨st, Leads.nil cfg st, h⟩
  | succ k ih =>
    obtain ⟨st₁, hrun, h₁⟩ := exists_leads_validRun ha hmargin h (by omega)
    obtain ⟨st₂, hruns, h₂⟩ := ih h₁ (by omega)
    refine ⟨st₂, hrun.append hruns, ?_⟩
    rwa [Nat.add_assoc, Nat.add_comm 1 k] at h₂

/-- The first run after RESET counts nothing: of level 1 it begins with an edge that is out of tolerance; of level 0 it
begins without an edge. -/
theorem exists_leads_firstRun (v : Bool) :
    ∃ st' cs, Leads cfg (List.replicate cfg.L v) resetSync st' [] cs ∧ Cond.evLock ∉ cs ∧ InPreamble cfg 0 v st' := by
  cases v with
  | false =>
    have hheld := leads_held_unlocked cfg (st := resetSync) rfl rfl cfg.L
    rw [resetSync_sampCount, zero_add] at hheld
    exact ⟨_, _, hheld, List.not_mem_nil, rfl, rfl, rfl, rfl, rfl, lo_le_L ha, L_le_hi ha⟩
  | true =>
    have hcall (n : Nat) :=
      callSample_uEdgeBad (cfg := cfg) (n := n) (smp := true) (st := resetSync) rfl (by simp) (.inl (one_le_lo ha))
    exact ⟨_, _, leads_run_after_edge ha hcall rfl rfl rfl rfl, by simp, rfl, rfl, rfl, rfl, rfl,
      lo_le_L_sub_one ha hmargin, (Nat.sub_le _ _).trans (L_le_hi ha)⟩

theorem exists_leads_perfectPreamble (v : Bool) :
    ∃ st' cs, Leads cfg (runs cfg.K cfg.L v) resetSync st' [] cs ∧ Cond.evLock ∉ cs ∧
      InPreamble cfg (cfg.K - 1) (not^[cfg.K - 1] v) st' := by
  obtain ⟨-, -, hK, -⟩ := admitted_iff.mp ha
  obtain ⟨k, hk⟩ := Nat.exists_eq_add_of_le' hK
  obtain ⟨st₁, cs, hfirst, hcs, h₁⟩ := exists_leads_firstRun ha hmargin v
  obtain ⟨st₂, hruns, h₂⟩ := exists_leads_runs ha hmargin h₁ (k := k) (by omega)
  rw [zero_add] at h₂
  refine ⟨st₂, cs, ?_, hcs, by rwa [hk, Nat.add_sub_cancel]⟩
  simpa [hk, runs] using hfirst.append hruns

omit hmargin

/-- The edge that ends the `K`-th valid run locks. -/
theorem leads_lockingEdge {v : Bool} {st : SymSync} (h : InPreamble cfg (cfg.K - 1) v st) :
    Leads cfg [!v] st
      { st with
        state := .locked, last := !v, sampCount := 0, preambCount := 0
        buffer := if cfg.keepPreamble then st.buffer ++ [st.last] else [] } [] [.evLock] := by
  obtain ⟨-, -, hK, -⟩ := admitted_iff.mp ha
  obtain ⟨hs, ho, rfl, hp, hlen, hlo, hhi⟩ := h
  have hroom := bufFull_eq_false_of_length_lt ha (st := st) (by omega)
  exact Leads.single
    (fun _ => callSample_uLock hs (Bool.not_ne_self st.last) hlo hhi ho hroom (by omega)) ho

end Preamble

/-- The level that follows `k` runs, of which the first has level `v`. -/
theorem iterate_not_eq_ite (k : Nat) (v : Bool) : not^[k] v = if k % 2 = 0 then v else !v := by
  split
  · next heven => rw [Bool.involutive_not.iterate_even (Nat.even_iff.mpr heven), id]
  · next hodd => rw [Bool.involutive_not.iterate_odd (Nat.odd_iff.mpr (Nat.mod_two_ne_zero.mp hodd))]

/-! A run in a lock session (R120, R122). -/

section LockedRun

variable {cfg : Cfg} {st : SymSync} (hs : st.state = .locked) (ho : st.ovf = false) (hc : st.sampCount = 0)
include hs ho hc

/-- A run that is long enough, and does not end on a midpoint, gives one bit for each midpoint it has. -/
theorem leads_keptRun {n : Nat} (hroom : RoomFor cfg st (midCount cfg n)) (hlo : lo cfg ≤ n)
    (hmid : n % cfg.L ≠ cfg.L / 2) :
    Leads cfg (List.replicate n st.last ++ [!st.last]) st
      { st with
        last := !st.last, sampCount := 0, buffer := st.buffer ++ List.replicate (midCount cfg n) st.last } [] [] := by
  have hmids : midsFrom cfg st.sampCount n = midCount cfg n := by rw [hc, midsFrom_zero_left]
  have hcount : (heldLocked cfg st n).sampCount = n := by simp [heldLocked, hc]
  have hheld := leads_held_locked hs ho (by rwa [hmids])
  have hcall (k : Nat) := callSample_lEdgeKeep (n := k) (smp := !st.last) (st := heldLocked cfg st n) hs
    (Bool.not_ne_self st.last) (by rwa [hcount]) ho (fun hm => absurd (hcount ▸ hm) hmid)
  have hbits : midBuffer cfg (!st.last) (heldLocked cfg st n) =
      st.buffer ++ List.replicate (midCount cfg n) st.last := by
    rw [midBuffer, hcount, if_neg hmid, ← hmids, heldLocked]
  rw [hbits] at hcall
  exact hheld.append (Leads.single hcall ho)

/-- A run that is too short ends the session with one emission. -/
theorem exists_leads_lostRun {n : Nat} (hroom : RoomFor cfg st (midCount cfg (n + 1))) (hlo : n < lo cfg) :
    ∃ B st', Leads cfg (List.replicate n st.last ++ [!st.last]) st st' [B] [.evLockLoss] ∧ st'.state = .unlocked := by
  have hmids : midsFrom cfg st.sampCount (n + 1) = midCount cfg (n + 1) := by rw [hc, midsFrom_zero_left]
  have hcount : (heldLocked cfg st n).sampCount = n := by simp [heldLocked, hc]
  rw [← hmids] at hroom
  have hheld := leads_held_locked hs ho (hroom.mono (midsFrom_le_succ cfg st.sampCount n))
  have hcall (k : Nat) := callSample_lEdgeLose (n := k) (smp := !st.last) (st := heldLocked cfg st n) hs
    (Bool.not_ne_self st.last) (by rwa [hcount]) ho (midRoom_heldLocked hroom)
  have hlost := hheld.append (Leads.single hcall ho)
  exact ⟨_, _, hlost, rfl⟩

end LockedRun

end Sys2Proof.Machine
end

section
/-! PROOFS. The statements of 40_symbol_synchronizer.md. -/

namespace Sys2Proof.Proofs

open Sys2Proof Sys2Proof.Machine

/-- Settles O38: each arm's selecting condition, spelled out, and the call that ADDSAMPLE makes under it. -/
theorem eachArmRunsExactlyWhenSelected : Obligations.EachArmRunsExactlyWhenSelected := by
  intro s raw hacc e c arm
  refine ⟨?uSame, ?uEdgeOk, ?uEdgeBad, ?uLock, ?lMid, ?lSame, ?lEdgeKeep, ?lEdgeLose⟩
  case uSame =>
    exact exec_arm_by_selection hacc (by rw [selUSame_iff]; exact and_congr_right fun _ => not_not)
      callSample_of_selUSame
  case uEdgeOk =>
    exact exec_arm_by_selection hacc (by rw [selUEdgeOk_iff, inTolerance_iff]; rfl) callSample_of_selUEdgeOk
  case uEdgeBad =>
    exact exec_arm_by_selection hacc (by rw [selUEdgeBad_iff, inTolerance_eq_false_iff]; rfl) callSample_of_selUEdgeBad
  case uLock =>
    exact exec_arm_by_selection hacc
      (by rw [selULock_iff, selUEdgeOk_iff, inTolerance_iff]; simp only [and_assoc]; rfl) callSample_of_selULock
  case lMid => exact exec_arm_by_selection hacc (by rw [selLMid_iff, midpoint_iff]) callSample_of_selLMid
  case lSame =>
    exact exec_arm_by_selection hacc (by rw [selLSame_iff]; exact and_congr_right fun _ => not_not)
      callSample_of_selLSame
  case lEdgeKeep =>
    exact exec_arm_by_selection hacc (by rw [selLEdgeKeep_iff, tooShort_eq_false_iff]; rfl) callSample_of_selLEdgeKeep
  case lEdgeLose =>
    exact exec_arm_by_selection hacc (by rw [selLEdgeLose_iff, tooShort_iff]; rfl) callSample_of_selLEdgeLose

/-- Settles O28: the call of U_SAME. -/
theorem uSameCountsTheSample : Obligations.USameCountsTheSample := by
  intro s raw hacc hs he t
  have hadd : exec (.addSample raw) s = .next t := exec_addSample_of_callSample hacc (callSample_uSame hs he)
  exact ⟨(exec_arm_of_selected (selUSame_iff.mpr ⟨hs, he⟩) callSample_of_selUSame).trans hadd, hadd⟩

/-- Settles O29: the call of U_EDGE_OK, the append finding room. -/
theorem uEdgeOkCountsThePreambleRun : Obligations.UEdgeOkCountsThePreambleRun := by
  intro s raw hacc hs he hlo hhi hroom hK t
  have ⟨_, _, ho⟩ := hacc
  have hadd : exec (.addSample raw) s = .next t :=
    exec_addSample_of_callSample hacc (callSample_uEdgeOk hs he hlo hhi ho hroom hK)
  have hsel := selUEdgeOk_iff.mpr ⟨hs, he, inTolerance_iff.mpr ⟨hlo, hhi⟩⟩
  exact ⟨(exec_arm_of_selected hsel callSample_of_selUEdgeOk).trans hadd, hadd⟩

/-- Settles O30: the call of U_EDGE_BAD. -/
theorem uEdgeBadRestartsThePreamble : Obligations.UEdgeBadRestartsThePreamble := by
  intro s raw hacc hs he hc t
  have hadd : exec (.addSample raw) s = .next t := exec_addSample_of_callSample hacc (callSample_uEdgeBad hs he hc)
  have hsel := selUEdgeBad_iff.mpr ⟨hs, he, inTolerance_eq_false_iff.mpr hc⟩
  exact ⟨(exec_arm_of_selected hsel callSample_of_selUEdgeBad).trans hadd, hadd⟩

/-- Settles O31: the call of U_EDGE_OK in which U_LOCK follows. -/
theorem uLockAcquiresLock : Obligations.ULockAcquiresLock := by
  intro s raw hacc hs he hlo hhi hroom hK t
  have ⟨_, _, ho⟩ := hacc
  have hadd : exec (.addSample raw) s = .next t :=
    exec_addSample_of_callSample hacc (callSample_uLock hs he hlo hhi ho hroom hK)
  have hok := selUEdgeOk_iff.mpr ⟨hs, he, inTolerance_iff.mpr ⟨hlo, hhi⟩⟩
  exact ⟨(exec_arm_of_selected (selULock_iff.mpr ⟨hok, hK⟩) callSample_of_selULock).trans hadd,
    (exec_arm_of_selected hok callSample_of_selUEdgeOk).trans hadd, hadd⟩

/-- Settles O32: the call of L_SAME after its midpoint test; at a midpoint L_MID is the same call. -/
theorem lSameCountsAfterTheMidpoint : Obligations.LSameCountsAfterTheMidpoint := by
  intro s raw hacc hs he hroom mid t
  have ⟨_, _, ho⟩ := hacc
  have hadd : exec (.addSample raw) s = .next t :=
    exec_addSample_of_callSample hacc (callSample_lSame hs he ho hroom)
  have hsel := selLSame_iff.mpr ⟨hs, he⟩
  refine ⟨(exec_arm_of_selected hsel callSample_of_selLSame).trans hadd, hadd, fun hm => ?_⟩
  exact (exec_lMid_of_midpoint hs hm).trans hadd

/-- Settles O33: the call of L_EDGE_KEEP after its midpoint test; at a midpoint L_MID is the same call. -/
theorem lEdgeKeepRestartsTheCounter : Obligations.LEdgeKeepRestartsTheCounter := by
  intro s raw hacc hs he hlo hroom mid t
  have ⟨_, _, ho⟩ := hacc
  have hadd : exec (.addSample raw) s = .next t :=
    exec_addSample_of_callSample hacc (callSample_lEdgeKeep hs he hlo ho hroom)
  have hsel := selLEdgeKeep_iff.mpr ⟨hs, he, tooShort_eq_false_iff.mpr hlo⟩
  refine ⟨(exec_arm_of_selected hsel callSample_of_selLEdgeKeep).trans hadd, hadd, fun hm => ?_⟩
  exact (exec_lMid_of_midpoint hs hm).trans hadd

/-- Settles O34: the call of L_EDGE_LOSE after its midpoint test; at a midpoint L_MID is the same call. -/
theorem lEdgeLoseEmitsTheBuffer : Obligations.LEdgeLoseEmitsTheBuffer := by
  intro s raw hacc hs he hlo hroom mid t
  have ⟨_, _, ho⟩ := hacc
  have hadd : exec (.addSample raw) s = .next t :=
    exec_addSample_of_callSample hacc (callSample_lEdgeLose hs he hlo ho hroom)
  have hsel := selLEdgeLose_iff.mpr ⟨hs, he, tooShort_iff.mpr hlo⟩
  refine ⟨(exec_arm_of_selected hsel callSample_of_selLEdgeLose).trans hadd, hadd, fun hm => ?_⟩
  exact (exec_lMid_of_midpoint hs hm).trans hadd

/-- Settles O35: the midpoint test overflows, and whichever arm ends the call leaves that to be seen. -/
theorem midpointOnAFullBufferOverflows : Obligations.MidpointOnAFullBufferOverflows := by
  intro s raw hacc hs hm hfull
  have hmid : selLMid s.cfg s.st = true := selLMid_iff.mpr ⟨hs, midpoint_iff.mpr hm⟩
  have hadd := exec_addSample_of_callSample (raw := raw) hacc (callSample_of_selLMid hmid)
  have hst : actLMid s.cfg (corrected s.cfg raw) s.st = { s.st with ovf := true } := bufAppend_of_full hfull
  rw [hst] at hadd
  obtain ⟨hovf, hraised, hlast, hkeep⟩ :=
    closeLocked_of_ovf s.cfg s.freeCount (corrected s.cfg raw) s.st (st := { s.st with ovf := true }) rfl
  refine ⟨_, hadd, (exec_lMid_of_midpoint hs hm).trans hadd, hovf, hraised, hlast, rfl, rfl, rfl, rfl, fun hl => ?_⟩
  obtain ⟨hbuffer, hout⟩ := hkeep hl
  exact ⟨hbuffer, congrArg Output.emission hout⟩

/-- Settles O36: every sample operation takes a reply, and after an overflow none is taken. -/
theorem overflowedInstanceFaultsUntilReset : Obligations.OverflowedInstanceFaultsUntilReset := by
  intro s raw ha he ho
  refine ⟨fun i hi => ?_, _, exec_reset_of_admitted ha, rfl⟩
  obtain ⟨r, hr⟩ := exists_takeReply_of_mem_sampleOps hi s
  rw [hr, takeReply_of_ovf ha he ho]

/-- Settles O37: ENDSTREAM answers under an admitted configuration; every sample operation takes a reply, and once the
stream has ended none is taken. -/
theorem endStreamEndsTheSamples : Obligations.EndStreamEndsTheSamples := by
  intro s ha
  refine ⟨by simp [exec, execEndStream, ha], fun he raw i hi => ?_⟩
  obtain ⟨r, hr⟩ := exists_takeReply_of_mem_sampleOps hi s
  rw [hr, takeReply_of_ended ha he]

/-- Settles O39: an accepting state takes the reply of every call, and every call stores the level. -/
theorem addSampleCompletesAndStoresTheLevel : Obligations.AddSampleCompletesAndStoresTheLevel :=
  fun _ raw hacc => ⟨_, exec_addSample_of_accepting hacc raw, callSample_last _ _ _ _, rfl, rfl, rfl, rfl⟩

/-- Settles O40: of the three ways a call can change lock, one loses it, and that one alone emits. -/
theorem emissionExactlyOnLockLoss : Obligations.EmissionExactlyOnLockLoss := by
  intro s t raw h ho
  obtain ⟨-, rfl⟩ := exec_addSample_next h
  have hlose : selLEdgeLose s.cfg s.st (corrected s.cfg raw) = true ↔
      s.st.state = .locked ∧ (raw ^^ s.cfg.inv) ≠ s.st.last ∧ s.st.sampCount < lo s.cfg := by
    rw [selLEdgeLose_iff, tooShort_iff]; rfl
  rw [← hlose]
  simp only [afterSample] at ho ⊢
  cases callSample_lockChange ho with
  | acquired hs hs' hout hraised => simp [hs, hs', hout, selLEdgeLose_of_unlocked hs]
  | lost hsel hs' B hout hraised =>
    obtain ⟨hs, -⟩ := selLEdgeLose_iff.mp hsel
    simp [hs, hs', hout, hsel]
  | kept hsel hs' hout hlock hloss => simp +contextual [hs', hout, hsel]

/-- Settles O43: the invariant leaves room in the buffer of an Unlocked record. -/
theorem unlockedCallNeverOverflows : Obligations.UnlockedCallNeverOverflows := by
  intro s t raw hi hs h
  obtain ⟨ha, hlock, -, -⟩ := inv_iff.mp hi
  obtain ⟨⟨-, -, ho⟩, rfl⟩ := exec_addSample_next h
  exact callSample_of_unlocked_room hs ho (((lockInv_of_unlocked hs).mp hlock).bufFull_eq_false ha)

/-- Settles O54: RESET is decoded before anything else offered, and what is left of the offer goes back. -/
theorem resetWinsOverASample : Obligations.ResetWinsOverASample := by
  intro s op fin stall rest ha hsource
  have hrun : step s = runOffered s := by simp [step, ha, resetOffered, hsource]
  rw [hrun, runOffered_of_decode_ok hsource rfl, exec_reset_of_admitted (by exact ha)]
  cases op <;> cases fin <;> rfl

/-- Settles O58: the step runs ADDSAMPLE, which emits as L_EDGE_LOSE does, and an emission calls for DECODE. -/
theorem lockLossStartsDecoding : Obligations.LockLossStartsDecoding := by
  intro s raw rest hacc hstage hsource hs he hlo hroom
  have ⟨ha, _, _⟩ := hacc
  obtain ⟨-, hadd, -⟩ := lEdgeLoseEmitsTheBuffer { s with source := rest } raw hacc hs he hlo hroom
  have htake : takeOffer (sampleOffer raw :: rest) = rest := rfl
  rw [step_of_stage_idle ha hstage, runOffered_of_decode_ok hsource (decode_encode (i := .addSample raw) rfl), htake,
    hadd]
  exact ⟨_, _, rfl, rfl, rfl, rfl, rfl⟩

/-- Settles O44: each call keeps the balance of emissions, losses and acquisitions, by induction on the stream. -/
theorem emissionsNeverExceedAcquisitions : Obligations.EmissionsNeverExceedAcquisitions := by
  intro s xs hacc hs
  refine ⟨exists_feed_of_unbounded xs hacc, fun tr htr ho => ?_⟩
  obtain ⟨hloss, hlock⟩ := feed_counts htr ho
  rw [hs, openSessions_eq_ite tr.final.st.state] at hlock
  exact ⟨hloss, hlock⟩

/-- Settles O45: the first run counts nothing, each other run counts the one before it, and the edge after them locks. -/
theorem perfectPreambleLocksOnTheNextEdge : Obligations.PerfectPreambleLocksOnTheNextEdge := by
  intro s v hacc hst hmargin w
  have ⟨ha, _, _⟩ := hacc
  obtain ⟨-, -, hK, -⟩ := admitted_iff.mp ha
  obtain ⟨st, cs, hruns, hcs, hpre⟩ := exists_leads_perfectPreamble ha hmargin v
  have hw : (!not^[s.cfg.K - 1] v) = w := by
    rw [← Function.iterate_succ_apply' not, Nat.succ_eq_add_one, Nat.sub_add_cancel hK, iterate_not_eq_ite]
  have hlock := hruns.append (leads_lockingEdge ha hpre)
  rw [hw] at hlock
  rw [← hst] at hruns hlock
  obtain ⟨hs, -, -, hp, -⟩ := hpre
  constructor
  · obtain ⟨tr, htr, rfl, hes, -⟩ := hruns.exists_feed hacc
    exact ⟨tr, htr, hs, hp, hes⟩
  · obtain ⟨tr, htr, hfinal, hes, hconds⟩ := hlock.exists_feed hacc
    refine ⟨tr, htr, ?_⟩
    rw [hfinal, hes, hconds]
    refine ⟨rfl, rfl, rfl, rfl, fun hk => by simp [hk], rfl, ?_⟩
    simp [List.count_append, List.count_eq_zero_of_not_mem hcs]

/-- Settles O47: by induction on the samples held, each an L_SAME. -/
theorem heldLevelKeepsLock : Obligations.HeldLevelKeepsLock := by
  intro s n hacc hs mids hroom
  have ⟨_, _, ho⟩ := hacc
  obtain ⟨tr, htr, hfinal, hes, -⟩ := (leads_held_locked hs ho fun _ => hroom).exists_feed hacc
  exact ⟨tr, htr, hes, hfinal⟩

/-- Settles O48: the midpoints come once every `L` counts, so their number is a quotient. -/
theorem runHasOneMidpointPerSymbol : Obligations.RunHasOneMidpointPerSymbol := by
  intro cfg hL r hr
  have hh := half_lt_L hL
  refine ⟨fun hshort => midCount_of_le_half hL (by omega), fun hlong => ?_, fun m d hm hrun hdlo hdhi => ?_⟩
  · have hshift : r + (cfg.L - 1 - half cfg) = r - 1 - half cfg + cfg.L := by omega
    rw [midCount_eq_div hL, hshift, Nat.add_div_right _ hL]
  · have hlo : (m * cfg.L : ℤ) ≤ r + (cfg.L - 1 - half cfg) := by omega
    have hhi : (r : ℤ) ≤ m * cfg.L + half cfg := by omega
    refine midCount_eq_of_bounds hL ?_ (by exact_mod_cast hhi)
    zify [hL, show half cfg ≤ cfg.L - 1 by omega]
    exact hlo

/-- Settles O49: one sample short of `m` symbols there are `m` midpoints, and the edge is not on one. -/
theorem runOfSymbolsYieldsItsBits : Obligations.RunOfSymbolsYieldsItsBits := by
  intro s m hacc hs hc hroom hL hm hlo
  have ⟨_, _, ho⟩ := hacc
  have hlen : s.cfg.L ≤ m * s.cfg.L := Nat.le_mul_of_pos_left _ hm
  have hhalf : half s.cfg ≤ s.cfg.L - 2 := by simp only [half]; omega
  have hcount : midCount s.cfg (m * s.cfg.L - 1) = m := midCount_eq_of_bounds (by omega) (by omega) (by omega)
  have hmid : (m * s.cfg.L - 1) % s.cfg.L ≠ s.cfg.L / 2 := by
    have hlast : m * s.cfg.L - 1 = s.cfg.L - 1 + (m - 1) * s.cfg.L := by rw [Nat.sub_one_mul]; omega
    rw [hlast, Nat.add_mul_mod_self_right, Nat.mod_eq_of_lt (by omega)]
    omega
  have hrun := leads_keptRun hs ho hc (fun _ => by rwa [hcount]) hlo hmid
  rw [hcount] at hrun
  obtain ⟨tr, htr, hfinal, hes, -⟩ := hrun.exists_feed hacc
  exact ⟨tr, htr, hes, by simp [hfinal, hc]⟩

/-- Settles O50: the run is below LO, hence shorter than a symbol, and meets one midpoint at most. -/
theorem shortRunEmitsOnceAndUnlocks : Obligations.ShortRunEmitsOnceAndUnlocks := by
  intro s r hacc hs hc hroom hr hshort
  have ⟨ha, _, ho⟩ := hacc
  obtain ⟨hL, -, -, -⟩ := admitted_iff.mp ha
  have hlo : r < lo s.cfg := (lt_L_mul_one_sub_tol_iff ha r).mp hshort
  have hrL : r < s.cfg.L := hlo.trans_le (lo_le_L ha)
  have hfits : RoomFor s.cfg s.st (midCount s.cfg r) := by
    by_cases hlong : s.cfg.L / 2 < r
    · have hone : midCount s.cfg r = 1 := midCount_eq_of_bounds hL (by simp only [half]; omega) (by omega)
      rw [hone]
      exact fun _ cap hcap => bufFull_eq_false_iff.mp (hroom hlong) cap hcap
    · rw [midCount_of_le_half hL (Nat.not_lt.mp hlong)]
      exact fun h => absurd h (lt_irrefl 0)
  obtain ⟨n, rfl⟩ := Nat.exists_eq_add_of_le' hr
  obtain ⟨B, st', hrun, hs'⟩ := exists_leads_lostRun hs ho hc hfits (by omega)
  obtain ⟨tr, htr, rfl, hes, -⟩ := hrun.exists_feed hacc
  exact ⟨tr, htr, by rw [hes]; rfl, hs'⟩

/-- Settles O51: under the two polarities the calls see the same corrected samples. -/
theorem invertedInstanceOnTheComplementIsTheSame : Obligations.InvertedInstanceOnTheComplementIsTheSame :=
  fun s xs => feed_flipInv xs s

end Sys2Proof.Proofs
end

section
/-! SUPPORT. FRAMEDEC (41_frame_decoder.md): strings read back from their values, the fields of a codeword, what each
operation answers, the scan as an indexed one, and the batch that encodes sixteen codewords. -/

namespace Sys2Proof.Machine

/-! Strings read back from their values (R41, R42). -/

theorem be_lt (B : Bits) : be B < 2 ^ B.length := by
  induction B with
  | nil => exact Nat.one_pos
  | cons b B ih =>
    have hbit : 2 ^ B.length * b.toNat ≤ 2 ^ B.length * 1 := Nat.mul_le_mul_left _ b.toNat_le
    rw [be_cons, List.length_cons, pow_succ]
    omega

theorem bitsOf_be (B : Bits) : bitsOf B.length (be B) = B := by
  induction B with
  | nil => rfl
  | cons b B ih =>
    have hfirst : (be (b :: B)).testBit B.length = b := by
      rw [be_cons, Nat.testBit_two_pow_mul_add _ (be_lt B), if_neg (lt_irrefl _), Nat.sub_self]
      cases b <;> rfl
    have hrest : bitsOf B.length (be (b :: B)) = bitsOf B.length (be B) := by
      refine bitsOf_congr fun i hi => ?_
      rw [be_cons, Nat.testBit_two_pow_mul_add _ (be_lt B), if_pos hi]
    rw [List.length_cons, bitsOf, hfirst, hrest, ih]

theorem be_inj {A B : Bits} (h : A.length = B.length) : be A = be B ↔ A = B := by
  refine ⟨fun heq => ?_, congrArg be⟩
  rw [← bitsOf_be A, ← bitsOf_be B, h, heq]

theorem bitsOf_ofNat_be {n : Nat} {B : Bits} (h : B.length = n) : bitsOf n (BitVec.ofNat n (be B)).toNat = B := by
  subst h
  rw [BitVec.toNat_ofNat, Nat.mod_eq_of_lt (be_lt B), bitsOf_be]

theorem bitsOfWord_wordOf {B : Bits} (h : B.length = 32) : bitsOfWord (wordOf B) = B := bitsOf_ofNat_be h

/-! Substrings (R14). -/

theorem substr_append_substr (B : Bits) (off m n : Nat) :
    substr B off m ++ substr B (off + m) n = substr B off (m + n) := by
  rw [substr, substr, substr, List.take_add, List.drop_drop]

theorem substr_zero_length (B : Bits) : substr B 0 B.length = B := by
  rw [substr, List.drop_zero, List.take_length]

/-- A substring of a substring, when it lies within it. -/
theorem substr_substr {B : Bits} {off n k m : Nat} (h : k + m ≤ n) :
    substr (substr B off n) k m = substr B (off + k) m := by
  rw [substr, substr, substr, List.drop_take, List.drop_drop, List.take_take, Nat.min_eq_left (by omega)]

theorem substr_append_left {A C : Bits} {n : Nat} (h : A.length = n) : substr (A ++ C) 0 n = A := List.take_left' h

theorem substr_append_right {A C : Bits} {n : Nat} (h : A.length = n) (off m : Nat) :
    substr (A ++ C) (n + off) m = substr C off m := by
  rw [substr, substr, ← List.drop_drop, List.drop_left' h]

theorem substr_getElem? (B : Bits) (off : Nat) {j n : Nat} (h : j < n) : (substr B off n)[j]? = B[off + j]? := by
  rw [substr, List.getElem?_take_of_lt h, List.getElem?_drop]

theorem substr_one {B : Bits} {i : Nat} {b : Bool} (h : B[i]? = some b) : substr B i 1 = [b] := by
  rw [substr, List.take_one, List.head?_drop, h, Option.toList_some]

/-! The fields of a codeword, read big-endian from the bits as received (R139, R140). -/

/-- The value of `n` bits of a string as a field of a codeword. -/
def fieldOf (cw : Bits) (off n : Nat) : BitVec n := BitVec.ofNat n (be (substr cw off n))

theorem bitsOf_fieldOf {cw : Bits} {off n : Nat} (h : off + n ≤ cw.length) :
    bitsOf n (fieldOf cw off n).toNat = substr cw off n :=
  bitsOf_ofNat_be (by rw [substr_length]; omega)

theorem bitsOfWord_enc_addressFields {cw : Bits} (h : cw.length = 32) (hfirst : cw[0]? = some false) :
    bitsOfWord (enc (.address (fieldOf cw 1 18) (fieldOf cw 19 2) (fieldOf cw 21 10) (fieldOf cw 31 1))) = cw := by
  rw [bitsOfWord_enc_address, ← bitsOf_one_toNat, bitsOf_fieldOf (by omega), bitsOf_fieldOf (by omega),
    bitsOf_fieldOf (by omega), bitsOf_fieldOf (by omega), ← substr_one hfirst]
  calc substr cw 0 1 ++ substr cw 1 18 ++ substr cw 19 2 ++ substr cw 21 10 ++ substr cw 31 1
    _ = substr cw 0 32 := by
      rw [substr_append_substr cw 0 1 18, substr_append_substr cw 0 19 2, substr_append_substr cw 0 21 10,
        substr_append_substr cw 0 31 1]
    _ = cw := by rw [← h, substr_zero_length]

theorem bitsOfWord_enc_messageFields {cw : Bits} (h : cw.length = 32) (hfirst : cw[0]? = some true) :
    bitsOfWord (enc (.message (fieldOf cw 1 20) (fieldOf cw 21 10) (fieldOf cw 31 1))) = cw := by
  rw [bitsOfWord_enc_message, ← bitsOf_one_toNat, bitsOf_fieldOf (by omega), bitsOf_fieldOf (by omega),
    bitsOf_fieldOf (by omega), ← substr_one hfirst]
  calc substr cw 0 1 ++ substr cw 1 20 ++ substr cw 21 10 ++ substr cw 31 1
    _ = substr cw 0 32 := by
      rw [substr_append_substr cw 0 1 20, substr_append_substr cw 0 21 10, substr_append_substr cw 0 31 1]
    _ = cw := by rw [← h, substr_zero_length]

/-- A string that encodes a value is classified as that value, unless it is the idle pattern. -/
theorem classify_wordOf_of_enc {cw : Bits} {x : Codeword} (hx : bitsOfWord (enc x) = cw) (hidle : cw ≠ idleBits) :
    classify (wordOf cw) = x := by
  subst hx
  rw [wordOf_bitsOfWord]
  refine classify_enc ?_
  rintro rfl
  exact hidle (by decide)

theorem classify_wordOf_idleBits : classify (wordOf idleBits) = .idle := classify_idleWord

/-- At a codeword position the sync word is this Address (R76). -/
theorem classify_wordOf_syncBits : classify (wordOf syncBits) = .address 0x3E690 2 0x2EC 0 := by decide

theorem classify_wordOf_eq_fields {cw : Bits} (h : cw.length = 32) :
    classify (wordOf cw) =
      if cw = idleBits then .idle
      else if cw[0]? = some false then
        .address (fieldOf cw 1 18) (fieldOf cw 19 2) (fieldOf cw 21 10) (fieldOf cw 31 1)
      else .message (fieldOf cw 1 20) (fieldOf cw 21 10) (fieldOf cw 31 1) := by
  split
  · next hidle => rw [hidle, classify_wordOf_idleBits]
  · next hidle =>
    split
    · next hfirst => exact classify_wordOf_of_enc (bitsOfWord_enc_addressFields h hfirst) hidle
    · next hfirst =>
      have hlen : 0 < cw.length := by omega
      have hone : cw[0]? = some true := by
        rw [List.getElem?_eq_getElem hlen] at hfirst ⊢
        exact congrArg some (eq_true_of_ne_false fun hbit => hfirst (congrArg some hbit))
      exact classify_wordOf_of_enc (bitsOfWord_enc_messageFields h hone) hidle

/-! What the operations answer (R130 to R137). -/

theorem exec_classify (w : Word32) (s : State) :
    exec (.classify w) s = .next { s with result := .codeword (classify w), raised := [] } := rfl

theorem exec_decode (B : Bits) (s : State) :
    exec (.decode B) s = .next { s with result := .codewords (decodeStream B), raised := decodeConditions B } := rfl

theorem exec_syncMatch_of_inside {B : Bits} {i : Nat} (h : i + 32 ≤ B.length) (s : State) :
    exec (.syncMatch B i) s = .next { s with result := .matched (syncMatch B i), raised := [] } := if_pos h

theorem exec_syncMatch_of_outside {B : Bits} {i : Nat} (h : B.length < i + 32) (s : State) :
    exec (.syncMatch B i) s = .refused .windowOutside := if_neg (Nat.not_le.mpr h)

theorem exec_batch (B : Bits) (i : Nat) (s : State) :
    exec (.batch B i) s = .next { s with
      result := .batch (batchAt B i), raised := if (batchAt B i).isNone then [.evShortBatch] else [] } := rfl

theorem exec_slice_of_batch {b : Bits} (h : b.length = 512) (s : State) :
    exec (.slice b) s = .next { s with result := .slices (sliceBatch b), raised := [] } := if_pos h

theorem exec_slice_of_not_batch {b : Bits} (h : b.length ≠ 512) (s : State) :
    exec (.slice b) s = .refused .badBatchLength := if_neg h

/-! SYNCMATCH (R132). -/

theorem occursAt_inside {B : Bits} {i : Nat} (h : occursAt B i) : i + 32 ≤ B.length := by
  have hlen : (substr B i 32).length = 32 := congrArg List.length h
  rw [substr_length] at hlen
  omega

theorem syncMatch_iff {B : Bits} {i : Nat} : syncMatch B i = true ↔ occursAt B i := by
  rw [syncMatch, beq_iff_eq]
  by_cases h : i + 32 ≤ B.length
  · rw [bufRead_of_le h, Option.some_inj]
  · rw [bufRead_of_lt (by decide) (Nat.not_le.mp h)]
    exact iff_of_false nofun (mt occursAt_inside h)

theorem occursAt_iff_getElem? {B : Bits} {i : Nat} : occursAt B i ↔ ∀ j, j < 32 → B[i + j]? = syncBits[j]? := by
  constructor
  · intro h j hj
    rw [← h, substr_getElem? B i hj]
  · intro h
    refine List.ext_getElem? fun j => ?_
    by_cases hj : j < 32
    · rw [substr_getElem? B i hj, h j hj]
    · rw [List.getElem?_eq_none, List.getElem?_eq_none]
      · exact Nat.not_lt.mp hj
      · rw [substr_length]; omega

theorem occursAt_iff_be {B : Bits} {i : Nat} (h : i + 32 ≤ B.length) :
    occursAt B i ↔ be (substr B i 32) = 0x7CD215D8 := by
  have hvalue : be syncBits = 0x7CD215D8 := by decide
  have hlen : (substr B i 32).length = 32 := by rw [substr_length]; omega
  rw [← hvalue, be_inj hlen]

/-! BATCH (R133). -/

theorem batchAt_of_room {B : Bits} {i : Nat} (h : i + 544 ≤ B.length) :
    batchAt B i = some (substr B (i + 32) 512) := bufRead_of_le (by omega)

theorem batchAt_of_short {B : Bits} {i : Nat} (h : B.length < i + 544) : batchAt B i = none :=
  bufRead_of_lt (by decide) (by omega)

/-! SLICE (R135). -/

/-- The halves of the eight frames are the sixteen successive 32-bit words. -/
theorem sliceBatch_eq_map (b : Bits) :
    sliceBatch b = (List.range 16).map fun k => wordOf (substr b (32 * k) 32) := rfl

theorem sliceBatch_getElem? (b : Bits) {k : Nat} (h : k < 16) :
    (sliceBatch b)[k]? = some (wordOf (substr b (32 * k) 32)) := by
  rw [sliceBatch_eq_map, List.getElem?_map, List.getElem?_range h, Option.map_some]

/-- Successive words, joined again, are the string they were cut from. -/
theorem flatMap_range_substr (b : Bits) (n : Nat) :
    ((List.range n).flatMap fun k => substr b (32 * k) 32) = substr b 0 (32 * n) := by
  induction n with
  | zero => rfl
  | succ n ih =>
    rw [List.range_succ, List.flatMap_append, ih, List.flatMap_singleton, Nat.mul_succ,
      ← substr_append_substr b 0 (32 * n) 32, Nat.zero_add]

theorem flatMap_sliceBatch {b : Bits} (h : b.length = 512) : (sliceBatch b).flatMap bitsOfWord = b := by
  have hword : ∀ k ∈ List.range 16, bitsOfWord (wordOf (substr b (32 * k) 32)) = substr b (32 * k) 32 := by
    intro k hk
    have hk' : k < 16 := List.mem_range.mp hk
    exact bitsOfWord_wordOf (by rw [substr_length]; omega)
  rw [sliceBatch_eq_map, List.flatMap_map, List.flatMap_congr hword, flatMap_range_substr]
  exact (congrArg (substr b 0) h.symm).trans (substr_zero_length b)

/-! The scan at one index (R133 to R137). -/

theorem codewordsAt_of_batch {B : Bits} {i : Nat} (hi : occursAt B i) (hroom : i + 544 ≤ B.length) :
    codewordsAt B i = (List.range 16).map fun k => classify (wordOf (substr B (i + 32 + 32 * k) 32)) := by
  rw [codewordsAt, if_pos (syncMatch_iff.mpr hi), batchAt_of_room hroom, parseBatch, sliceBatch_eq_map, List.map_map]
  refine List.map_congr_left fun k hk => ?_
  have hk' : k < 16 := List.mem_range.mp hk
  rw [Function.comp_apply, substr_substr (by omega)]

theorem codewordsAt_of_not_occursAt {B : Bits} {i : Nat} (hi : ¬ occursAt B i) : codewordsAt B i = [] := by
  rw [codewordsAt, if_neg (mt syncMatch_iff.mp hi)]

theorem codewordsAt_of_short {B : Bits} {i : Nat} (h : B.length < i + 544) : codewordsAt B i = [] := by
  rw [codewordsAt, batchAt_of_short h, parseBatch, ite_self]

theorem codewordsAt_eq (B : Bits) (i : Nat) :
    codewordsAt B i =
      if occursAt B i ∧ i + 544 ≤ B.length then
        (List.range 16).map fun k => classify (wordOf (substr B (i + 32 + 32 * k) 32))
      else [] := by
  split
  · next h =>
    obtain ⟨hi, hroom⟩ := h
    exact codewordsAt_of_batch hi hroom
  · next h =>
    by_cases hi : occursAt B i
    · exact codewordsAt_of_short (Nat.not_le.mp fun hroom => h ⟨hi, hroom⟩)
    · exact codewordsAt_of_not_occursAt hi

theorem codewordsAt_length (B : Bits) (i : Nat) :
    (codewordsAt B i).length = if occursAt B i ∧ i + 544 ≤ B.length then 16 else 0 := by
  rw [codewordsAt_eq, apply_ite List.length, List.length_map, List.length_range, List.length_nil]

theorem codewordsAt_getElem? {B : Bits} {i k : Nat} (hi : occursAt B i) (hroom : i + 544 ≤ B.length) (hk : k < 16) :
    (codewordsAt B i)[k]? = some (classify (wordOf (substr B (i + 32 + 32 * k) 32))) := by
  rw [codewordsAt_of_batch hi hroom, List.getElem?_map, List.getElem?_range hk, Option.map_some]

theorem conditionsAt_eq (B : Bits) (i : Nat) :
    conditionsAt B i = if occursAt B i ∧ B.length < i + 544 then [.evShortBatch] else [] := by
  have hskip : (batchAt B i).isNone = true ↔ B.length < i + 544 := by
    by_cases h : B.length < i + 544
    · simp [batchAt_of_short h, h]
    · simp [batchAt_of_room (Nat.not_lt.mp h), h]
  simp only [conditionsAt, Bool.and_eq_true, syncMatch_iff, hskip]

/-! The scan of suffixes is the indexed scan (R131). -/

theorem syncMatch_cons_succ (b : Bool) (t : Bits) (i : Nat) : syncMatch (b :: t) (i + 1) = syncMatch t i := rfl

theorem batchAt_cons_succ (b : Bool) (t : Bits) (i : Nat) : batchAt (b :: t) (i + 1) = batchAt t i := by
  rw [batchAt, Nat.add_right_comm]
  rfl

theorem codewordsAt_cons_succ (b : Bool) (t : Bits) (i : Nat) : codewordsAt (b :: t) (i + 1) = codewordsAt t i := by
  rw [codewordsAt, codewordsAt, syncMatch_cons_succ, batchAt_cons_succ]

theorem conditionsAt_cons_succ (b : Bool) (t : Bits) (i : Nat) : conditionsAt (b :: t) (i + 1) = conditionsAt t i := by
  rw [conditionsAt, conditionsAt, syncMatch_cons_succ, batchAt_cons_succ]

theorem decodeStream_eq_range (B : Bits) : decodeStream B = (List.range B.length).flatMap (codewordsAt B) := by
  induction B with
  | nil => rfl
  | cons b t ih =>
    rw [decodeStream, ih, List.length_cons, List.range_succ_eq_map, List.flatMap_cons, List.flatMap_map]
    simp only [Nat.succ_eq_add_one, codewordsAt_cons_succ]

theorem decodeConditions_eq_range (B : Bits) :
    decodeConditions B = (List.range B.length).flatMap (conditionsAt B) := by
  induction B with
  | nil => rfl
  | cons b t ih =>
    rw [decodeConditions, ih, List.length_cons, List.range_succ_eq_map, List.flatMap_cons, List.flatMap_map]
    simp only [Nat.succ_eq_add_one, conditionsAt_cons_succ]

/-- What comes of occurrences alone is found at the indices the scan visits. -/
theorem flatMap_range_eq_scanIndices {α : Type} {B : Bits} {f : Nat → List α}
    (hf : ∀ i, ¬ occursAt B i → f i = []) :
    (List.range B.length).flatMap f = (scanIndices B).flatMap f := by
  obtain ⟨r, hr⟩ := Nat.exists_eq_add_of_le (show B.length + 1 - 32 ≤ B.length by omega)
  have hlast : ((List.range r).map (B.length + 1 - 32 + ·)).flatMap f = [] := by
    refine List.flatMap_eq_nil_iff.mpr fun i hi => hf i fun hocc => ?_
    obtain ⟨k, -, rfl⟩ := List.mem_map.mp hi
    have hinside := occursAt_inside hocc
    omega
  calc (List.range B.length).flatMap f
    _ = (List.range (B.length + 1 - 32 + r)).flatMap f := by rw [← hr]
    _ = (scanIndices B).flatMap f := by rw [List.range_add, List.flatMap_append, hlast, List.append_nil, scanIndices]

theorem decodeStream_eq_scan (B : Bits) : decodeStream B = (scanIndices B).flatMap (codewordsAt B) :=
  (decodeStream_eq_range B).trans (flatMap_range_eq_scanIndices fun _ => codewordsAt_of_not_occursAt)

theorem decodeConditions_eq_scan (B : Bits) : decodeConditions B = (scanIndices B).flatMap (conditionsAt B) := by
  refine (decodeConditions_eq_range B).trans (flatMap_range_eq_scanIndices fun i hi => ?_)
  rw [conditionsAt_eq, if_neg fun ⟨hocc, _⟩ => hi hocc]

/-! The number of codewords (R143). -/

theorem decodeStream_length (B : Bits) :
    (decodeStream B).length =
      16 * (scanIndices B).countP (fun i => decide (occursAt B i ∧ i + 544 ≤ B.length)) := by
  rw [decodeStream_eq_scan]
  induction scanIndices B with
  | nil => rfl
  | cons i is ih =>
    rw [List.flatMap_cons, List.length_append, ih, codewordsAt_length, List.countP_cons]
    simp only [decide_eq_true_eq]
    split <;> omega

/-- Where no two numbers with a property are nearer than `d`, each has a quotient by `d` of its own. -/
theorem count_le_of_spaced {p : Nat → Prop} [DecidablePred p] {d m n : Nat} (hd : 0 < d)
    (hspaced : ∀ i j, i < j → p i → p j → i + d ≤ j) (hmax : ∀ i, p i → i ≤ m) :
    Nat.count p n ≤ m / d + 1 := by
  have hlt : ∀ i j, i < j → p i → p j → i / d < j / d := fun i j hij hi hj =>
    calc i / d < (i + d) / d := by rw [Nat.add_div_right _ hd]; exact Nat.lt_succ_self _
      _ ≤ j / d := Nat.div_le_div_right (hspaced i j hij hi hj)
  rw [Nat.count_eq_card_filter_range, ← Finset.card_range (m / d + 1)]
  refine Finset.card_le_card_of_injOn (· / d) (fun i hi => ?_) (fun i hi j hj heq => ?_)
  · obtain ⟨-, hpi⟩ := Finset.mem_filter.mp hi
    exact Finset.mem_range.mpr (Nat.lt_succ_of_le (Nat.div_le_div_right (hmax i hpi)))
  · obtain ⟨-, hpi⟩ := Finset.mem_filter.mp hi
    obtain ⟨-, hpj⟩ := Finset.mem_filter.mp hj
    obtain hij | rfl | hij := Nat.lt_trichotomy i j
    · exact absurd heq (hlt i j hij hpi hpj).ne
    · rfl
    · exact absurd heq (hlt j i hij hpj hpi).ne'

/-! Two indices of one scan. -/

theorem exists_flatMap_range_split {α : Type} (f : Nat → List α) {i j n : Nat} (hij : i < j) (hjn : j < n) :
    ∃ u v w, (List.range n).flatMap f = u ++ f i ++ v ++ f j ++ w := by
  obtain ⟨d, rfl⟩ := Nat.exists_eq_add_of_lt hij
  obtain ⟨r, rfl⟩ := Nat.exists_eq_add_of_lt hjn
  refine ⟨(List.range i).flatMap f, ((List.range d).map (i + 1 + ·)).flatMap f,
    ((List.range r).map (i + 1 + d + 1 + ·)).flatMap f, ?_⟩
  have hn : i + d + 1 + r + 1 = i + 1 + d + 1 + r := by omega
  have hj : i + d + 1 = i + 1 + d := by omega
  rw [hn, hj, List.range_add, List.range_succ, List.range_add, List.range_succ]
  simp only [List.flatMap_append, List.flatMap_singleton, List.append_assoc]

/-! A sync word and the encodings of codewords (R142). -/

@[simp] theorem encAll_length (xs : List Codeword) : (encAll xs).length = 32 * xs.length := by
  simp [encAll, List.length_flatMap, Nat.mul_comm]

theorem map_wordOf_encAll (xs : List Codeword) (rest : Bits) :
    (List.range xs.length).map (fun k => wordOf (substr (encAll xs ++ rest) (32 * k) 32)) = xs.map enc := by
  induction xs with
  | nil => rfl
  | cons x xs ih =>
    have hcons : encAll (x :: xs) ++ rest = bitsOfWord (enc x) ++ (encAll xs ++ rest) := by
      rw [encAll, List.flatMap_cons, List.append_assoc, encAll]
    have hfirst : substr (encAll (x :: xs) ++ rest) (32 * 0) 32 = bitsOfWord (enc x) := by
      rw [hcons]
      exact substr_append_left (bitsOfWord_length _)
    have hnext : ∀ k, substr (encAll (x :: xs) ++ rest) (32 * (k + 1)) 32 =
        substr (encAll xs ++ rest) (32 * k) 32 := by
      intro k
      rw [hcons, Nat.mul_succ, Nat.add_comm]
      exact substr_append_right (bitsOfWord_length _) _ _
    rw [List.length_cons, List.range_succ_eq_map, List.map_cons, List.map_map, List.map_cons, hfirst, wordOf_bitsOfWord,
      ← ih]
    simp only [Function.comp_def, Nat.succ_eq_add_one, hnext]

theorem encodedBatch_length {xs : List Codeword} (hlen : xs.length = 16) (rest : Bits) :
    (syncBits ++ encAll xs ++ rest).length = 544 + rest.length := by
  have hsync : syncBits.length = 32 := rfl
  simp only [List.length_append, encAll_length, hlen, hsync]

/-- The batch of a sync word and sixteen encoded codewords is parsed to those codewords. -/
theorem codewordsAt_encodedBatch {xs : List Codeword} (hlen : xs.length = 16)
    (hxs : ∀ x ∈ xs, x ≠ .address 0x3D44E 0 0x0CB 1) (rest : Bits) :
    codewordsAt (syncBits ++ encAll xs ++ rest) 0 = xs := by
  have hocc : occursAt (syncBits ++ encAll xs ++ rest) 0 := by
    rw [List.append_assoc]
    exact substr_append_left rfl
  have hroom : 0 + 544 ≤ (syncBits ++ encAll xs ++ rest).length := by
    rw [encodedBatch_length hlen]
    omega
  have hword : ∀ k, substr (syncBits ++ encAll xs ++ rest) (0 + 32 + 32 * k) 32 =
      substr (encAll xs ++ rest) (32 * k) 32 := by
    intro k
    rw [List.append_assoc, Nat.zero_add]
    exact substr_append_right rfl _ _
  have hclass : ∀ x ∈ xs, classify (enc x) = x := fun x hx => classify_enc (hxs x hx)
  calc codewordsAt (syncBits ++ encAll xs ++ rest) 0
    _ = ((List.range xs.length).map fun k => wordOf (substr (encAll xs ++ rest) (32 * k) 32)).map classify := by
      rw [codewordsAt_of_batch hocc hroom, List.map_map, hlen]
      simp only [Function.comp_def, hword]
    _ = xs := by
      rw [map_wordOf_encAll, List.map_map]
      exact (List.map_congr_left hclass).trans (List.map_id xs)

/-- The scan begins at index 0. -/
theorem decodeStream_eq_first_append {B : Bits} (h : 0 < B.length) :
    decodeStream B = codewordsAt B 0 ++ (List.range (B.length - 1)).flatMap fun i => codewordsAt B (i + 1) := by
  obtain ⟨n, hn⟩ := Nat.exists_eq_add_of_le' h
  rw [decodeStream_eq_range, hn, List.range_succ_eq_map, List.flatMap_cons, List.flatMap_map, Nat.add_sub_cancel]

end Sys2Proof.Machine
end

section
/-! PROOFS. The statements of 41_frame_decoder.md. -/

namespace Sys2Proof.Proofs

open Sys2Proof Sys2Proof.Machine

/-- Settles O17: the first index gives back the codewords of the batch, and a later one gives some only where an
occurrence has 512 bits after it. -/
theorem encodedBatchDecodesToItsCodewords : Obligations.EncodedBatchDecodesToItsCodewords := by
  intro xs rest s hlen hxs
  have hB := encodedBatch_length hlen rest
  have hfirst := codewordsAt_encodedBatch hlen hxs rest
  generalize syncBits ++ encAll xs ++ rest = B at hB hfirst ⊢
  have hlater : (∀ i, 0 < i → i + 544 ≤ 544 + rest.length → ¬ occursAt B i) →
      ((List.range (B.length - 1)).flatMap fun i => codewordsAt B (i + 1)) = [] := by
    refine fun hnone => List.flatMap_eq_nil_iff.mpr fun i _ => ?_
    by_cases hroom : i + 1 + 544 ≤ 544 + rest.length
    · exact codewordsAt_of_not_occursAt (hnone (i + 1) i.succ_pos hroom)
    · exact codewordsAt_of_short (by omega)
  refine ⟨_, decodeConditions B, ?_, hlater, fun hrest => hlater fun i hi hroom => ?_⟩
  · rw [exec_decode, decodeStream_eq_first_append (by omega), hfirst]
  · rw [hrest, List.length_nil] at hroom
    omega

/-- Settles O7: a codeword that is not idle encodes the value whose fields are read out of it. -/
theorem classifyExtractsTheFields : Obligations.ClassifyExtractsTheFields := by
  intro cw s hlen
  rw [exec_classify, classify_wordOf_eq_fields hlen]
  rfl

/-- Settles O12: within the string the match is an occurrence, bit by bit and by the value of the window. -/
theorem syncMatchComparesAllBits : Obligations.SyncMatchComparesAllBits := fun B i s =>
  ⟨fun hin => ⟨syncMatch B i, exec_syncMatch_of_inside hin s, syncMatch_iff.trans occursAt_iff_getElem?,
    syncMatch_iff.trans (occursAt_iff_be hin)⟩, fun hout => exec_syncMatch_of_outside hout s⟩

/-- Settles O13: the read of the batch is defined exactly when all its bits exist. -/
theorem batchTakesAllOrSkips : Obligations.BatchTakesAllOrSkips := by
  refine fun B i s => ⟨fun hroom => ?_, fun hshort => ?_⟩
  · rw [exec_batch, batchAt_of_room hroom]
    rfl
  · rw [exec_batch, batchAt_of_short hshort]
    rfl

/-- Settles O14: the sixteen words are cut at the multiples of 32, and joined again they are the batch. -/
theorem sliceCutsSixteenCodewords : Obligations.SliceCutsSixteenCodewords := by
  refine fun b s => ⟨fun hlen => ?_, fun hlen => exec_slice_of_not_batch hlen s⟩
  refine ⟨sliceBatch b, exec_slice_of_batch hlen s, sliceBatch_length b, fun f hf => ⟨?_, ?_⟩,
    flatMap_sliceBatch hlen⟩
  · rw [sliceBatch_getElem? b (by omega), show 32 * (2 * f) = 64 * f by omega]
  · rw [sliceBatch_getElem? b (by omega), show 32 * (2 * f + 1) = 64 * f + 32 by omega]

/-- Settles O15: the suffix scanned at its own index 0 is the string at the suffix's index. -/
theorem decodeScansEveryIndex : Obligations.DecodeScansEveryIndex := by
  intro B s
  rw [exec_decode, decodeStream_eq_scan, decodeConditions_eq_scan, funext (codewordsAt_eq B),
    funext (conditionsAt_eq B)]

/-- Settles O16: sixteen codewords for each occurrence with its batch, and two of these are 31 indices apart. -/
theorem decodeCountsSixteenPerOccurrence : Obligations.DecodeCountsSixteenPerOccurrence := by
  refine fun B => ⟨decodeStream_length B, fun hshort => ?_, fun hlong => ?_⟩
  · rw [decodeStream_eq_scan, List.flatMap_eq_nil_iff.mpr fun i _ => codewordsAt_of_short (by omega), List.length_nil]
  · have hcount := count_le_of_spaced (p := fun i => occursAt B i ∧ i + 544 ≤ B.length) (n := B.length + 1 - 32)
      (by decide : 0 < 31) (fun _ _ hij ⟨hi, _⟩ ⟨hj, _⟩ => occursAt_distance hij hi hj)
      fun _ ⟨_, hroom⟩ => Nat.le_sub_of_add_le hroom
    rw [decodeStream_length]
    exact Nat.mul_le_mul_left 16 hcount

/-- Settles O18: both occurrences cut the same string at multiples of 32 from the first batch, and the scan meets the
one before the other. -/
theorem overlappingOccurrenceIsParsedAgain : Obligations.OverlappingOccurrenceIsParsedAgain := by
  intro B i k hk hi hj hroom
  have hroom' : i + 544 ≤ B.length := by omega
  refine ⟨?_, ?_, fun j hjk => ?_, ?_⟩
  · rw [codewordsAt_getElem? hi hroom' hk, show substr B (i + 32 + 32 * k) 32 = syncBits from hj,
      classify_wordOf_syncBits]
  · rw [codewordsAt_length, if_pos ⟨hj, hroom⟩]
  · rw [codewordsAt_getElem? hj hroom (by omega), codewordsAt_getElem? hi hroom' hjk,
      show i + 32 + 32 * k + 32 + 32 * j = i + 32 + 32 * (k + 1 + j) by omega]
  · rw [decodeStream_eq_range]
    exact exists_flatMap_range_split (codewordsAt B) (by omega) (by omega)

end Sys2Proof.Proofs
end

section
/-! SUPPORT. MSGASM (42_message_assembler.md): what a codeword adds to the accumulators, the value of a reversed bit group,
the digits of the address, and what each operation answers. -/

namespace Sys2Proof.Machine

/-! ASSEMBLE (R160 to R163): what each codeword adds, and the accumulators after a whole sequence. -/

/-- The address a codeword brings: that of an Address. -/
def addressOf : Codeword → Option (BitVec 18)
  | .address a _ _ _ => some a
  | _ => none

/-- The message bits a codeword brings: the payload of a Message as 20 bits. -/
def payloadBits : Codeword → Bits
  | .message m _ _ => bitsOf 20 m.toNat
  | _ => []

theorem accuTake_eq (a : Accu) (c : Codeword) :
    accuTake a c = { address := (addressOf c).or a.address, messageBits := a.messageBits ++ payloadBits c } := by
  cases c <;> simp [accuTake, addressOf, payloadBits]

theorem foldl_accuTake (cws : List Codeword) :
    cws.foldl accuTake accuStart =
      { address := (cws.filterMap addressOf).getLast?, messageBits := cws.flatMap payloadBits } := by
  induction cws using List.reverseRecOn with
  | nil => rfl
  | append_singleton cws c ih =>
    have hlast : ((cws ++ [c]).filterMap addressOf).getLast? =
        (addressOf c).or (cws.filterMap addressOf).getLast? := by
      cases h : addressOf c <;> simp [h]
    rw [List.foldl_concat, ih, accuTake_eq, hlast, List.flatMap_append, List.flatMap_singleton]

theorem assembleLine_eq (cws : List Codeword) :
    assembleLine cws = formatLine (cws.filterMap addressOf).getLast? (septets (cws.flatMap payloadBits)) := by
  rw [assembleLine, foldl_accuTake]

theorem exec_assemble (cws : List Codeword) (s : State) :
    exec (.assemble cws) s = .next { s with result := .line (assembleLine cws), raised := [] } := rfl

/-! SEPTET (R164): the first bit of a group is the least significant. -/

theorem be_reverse (B : Bits) :
    be B.reverse = ((List.range B.length).map fun k => 2 ^ k * (B[k]?.getD false).toNat).sum := by
  induction B with
  | nil => rfl
  | cons b B ih =>
    rw [List.reverse_cons, be_append_one, ih, ← List.sum_map_mul_left, List.length_cons, List.range_succ_eq_map,
      List.map_cons, List.sum_cons, Nat.add_comm]
    simp [Function.comp_def, pow_succ', mul_assoc]

theorem septetCode_toNat {g : Bits} (h : g.length = 7) :
    (septetCode g).toNat = ((List.range 7).map fun k => 2 ^ k * (g[k]?.getD false).toNat).sum := by
  have hlt : be g.reverse < 2 ^ 7 := by simpa [h] using be_lt g.reverse
  rw [septetCode, BitVec.toNat_ofNat, Nat.mod_eq_of_lt hlt, be_reverse, h]

@[simp] theorem septets_length (mb : Bits) : (septets mb).length = mb.length / 7 := by
  rw [septets, List.length_map, List.length_range]

theorem septets_getElem? {mb : Bits} {j : Nat} (h : j < mb.length / 7) :
    (septets mb)[j]? = some (septetCode (substr mb (7 * j) 7)) := by
  rw [septets, List.getElem?_map, List.getElem?_range h, Option.map_some]

theorem septetCode_substr_toNat {mb : Bits} {off : Nat} (h : off + 7 ≤ mb.length) :
    (septetCode (substr mb off 7)).toNat =
      ((List.range 7).map fun k => 2 ^ k * (mb[off + k]?.getD false).toNat).sum := by
  rw [septetCode_toNat (by rw [substr_length]; omega)]
  refine congrArg List.sum (List.map_congr_left fun k hk => ?_)
  rw [substr_getElem? mb off (List.mem_range.mp hk)]

theorem exec_septet (mb : Bits) (s : State) :
    exec (.septet mb) s = .next { s with result := .text (septets mb), raised := [] } := rfl

/-! FORMAT (R166): the base-16 digits of the address without leading zeros. -/

/-- The digits `hex(a)` writes, as numbers. -/
def hexNumeral (a : BitVec 18) : List Nat :=
  if a = 0 then [0] else (hexDigits5 a).dropWhile (· == 0)

/-- Leading zeros do not count: the value of a numeral is that of what stands after them. -/
theorem ofDigits_reverse_dropWhile_zero (b : Nat) (ds : List Nat) :
    Nat.ofDigits b (ds.dropWhile (· == 0)).reverse = Nat.ofDigits b ds.reverse := by
  induction ds with
  | nil => rfl
  | cons d ds ih =>
    rw [List.dropWhile_cons]
    split
    · next hd => rw [ih, beq_iff_eq.mp hd, Nat.ofDigits_reverse_zero_cons]
    · rfl

theorem ofDigits_hexDigits5 (a : BitVec 18) : Nat.ofDigits 16 (hexDigits5 a).reverse = a.toNat := by
  have hlt := a.isLt
  simp only [hexDigits5, List.map_cons, List.map_nil, List.reverse_cons, List.reverse_nil, List.nil_append,
    List.cons_append, Nat.ofDigits_cons, Nat.ofDigits_nil]
  omega

theorem lt_of_mem_hexDigits5 {a : BitVec 18} {d : Nat} (h : d ∈ hexDigits5 a) : d < 16 := by
  obtain ⟨k, -, rfl⟩ := List.mem_map.mp h
  exact Nat.mod_lt _ (by decide)

/-- All five digits are zeros only for 0. -/
theorem dropWhile_hexDigits5_eq_nil_iff {a : BitVec 18} : (hexDigits5 a).dropWhile (· == 0) = [] ↔ a = 0 := by
  refine ⟨fun h => BitVec.eq_of_toNat_eq ?_, fun h => h ▸ rfl⟩
  rw [← ofDigits_hexDigits5, ← ofDigits_reverse_dropWhile_zero, h]
  rfl

theorem hexText_eq (a : BitVec 18) : hexText a = (hexNumeral a).map hexDigit := by
  unfold hexText hexNumeral
  split
  · next h => rw [if_pos (dropWhile_hexDigits5_eq_nil_iff.mp h), List.map_singleton]
  · next h => rw [if_neg fun ha => h (dropWhile_hexDigits5_eq_nil_iff.mpr ha)]

theorem ofDigits_hexNumeral (a : BitVec 18) : Nat.ofDigits 16 (hexNumeral a).reverse = a.toNat := by
  unfold hexNumeral
  split
  · next h => rw [h]; rfl
  · rw [ofDigits_reverse_dropWhile_zero, ofDigits_hexDigits5]

theorem lt_of_mem_hexNumeral {a : BitVec 18} {d : Nat} (h : d ∈ hexNumeral a) : d < 16 := by
  unfold hexNumeral at h
  split at h
  · rw [List.mem_singleton.mp h]; decide
  · exact lt_of_mem_hexDigits5 ((List.dropWhile_sublist _).subset h)

theorem hexNumeral_ne_nil (a : BitVec 18) : hexNumeral a ≠ [] := by
  unfold hexNumeral
  split
  · exact List.cons_ne_nil _ _
  · next h => exact mt dropWhile_hexDigits5_eq_nil_iff.mp h

/-- No leading zero, but for the single digit of 0. -/
theorem hexNumeral_head?_ne_zero {a : BitVec 18} (h : 1 < (hexNumeral a).length) : (hexNumeral a).head? ≠ some 0 := by
  unfold hexNumeral at h ⊢
  split at h
  · exact absurd h (lt_irrefl 1)
  · next ha =>
    rw [if_neg ha]
    intro hhead
    have hnot := List.head?_dropWhile_not (· == 0) (hexDigits5 a)
    rw [hhead] at hnot
    exact absurd hnot (by decide)

theorem formatLine_some (a : BitVec 18) (t : Text) :
    formatLine (some a) t = (hexNumeral a).map hexDigit ++ separator ++ t := by
  rw [← hexText_eq, formatLine]

theorem formatLine_append (address : Option (BitVec 18)) (t u : Text) :
    formatLine address (t ++ u) = formatLine address t ++ u := by
  cases address with
  | none => rfl
  | some a => rw [formatLine_some, formatLine_some, List.append_assoc _ t u]

theorem exec_format (address : Option (BitVec 18)) (t : Text) (s : State) :
    exec (.format address t) s = .next { s with result := .line (formatLine address t), raised := [] } := rfl

/-! The corrected example of GRX (R168). -/

/-- The payload of the first Message is the two characters `Hi` and six bits left over. -/
theorem septets_examplePayload : septets (bitsOf 20 0x132C0) = [72, 105] := by decide

/-- A second payload of zeros completes the third group and two more. -/
theorem septets_examplePayload_zeros : septets (bitsOf 20 0x132C0 ++ bitsOf 20 0) = [72, 105] ++ [0, 0, 0] := by decide

end Sys2Proof.Machine
end

section
/-! PROOFS. The statements of 42_message_assembler.md. -/

namespace Sys2Proof.Proofs

open Sys2Proof Sys2Proof.Machine

/-- Settles O19: the accumulators after the sequence, by induction from its end. -/
theorem assembleFoldsTheCodewords : Obligations.AssembleFoldsTheCodewords := by
  intro cws s
  rw [exec_assemble, assembleLine_eq]
  rfl

/-- Settles O20: a group reversed and read big-endian weighs its first bit least. -/
theorem septetsAreReversedSevenBitGroups : Obligations.SeptetsAreReversedSevenBitGroups := fun mb s =>
  ⟨septets mb, exec_septet mb s, septets_length mb, fun j hj =>
    ⟨septetCode (substr mb (7 * j) 7), septets_getElem? hj, septetCode_substr_toNat (by omega)⟩⟩

/-- Settles O21: the five digits without their leading zeros are a numeral of the address. -/
theorem formatWritesTheResultLine : Obligations.FormatWritesTheResultLine := by
  refine fun t s => ⟨exec_format none t s, fun a => ⟨hexNumeral a, ?_, ofDigits_hexNumeral a,
    fun d hd => lt_of_mem_hexNumeral hd, hexNumeral_ne_nil a, hexNumeral_head?_ne_zero⟩⟩
  rw [exec_format, formatLine_some]
  rfl

/-- Settles O22: check and parity enter neither the address nor the joined payloads. -/
theorem resultLineOfTheExample : Obligations.ResultLineOfTheExample := by
  intro c q c' q'
  have hone : assembleLine [.address 0x1234 0 0 0, .message 0x132C0 c q] =
      formatLine (some 0x1234) (septets (bitsOf 20 0x132C0)) := assembleLine_eq _
  have htwo : assembleLine [.address 0x1234 0 0 0, .message 0x132C0 c q, .message 0 c' q'] =
      formatLine (some 0x1234) (septets (bitsOf 20 0x132C0 ++ bitsOf 20 0)) := assembleLine_eq _
  rw [htwo, hone, septets_examplePayload, septets_examplePayload_zeros, formatLine_append]
  exact ⟨by decide, rfl⟩

end Sys2Proof.Proofs
end

section
/-! SUPPORT. The exceptions (60_exceptions.md): a sample offered together with the end of the stream, and the beats of an
emission. -/

namespace Sys2Proof.Machine

/-! A sample and the end of the stream in one offer (R194 f). -/

/-- The sample at the input together with the end of the stream. -/
def sampleAndEndOffer (raw stall : Bool) : Offer :=
  { rst := false, op := some { sel := .sample, index := 0, bits := [raw] }, fin := true, stall := stall }

/-- The end offered with a sample does not change what is decoded. -/
theorem decode_sampleAndEndOffer (raw stall : Bool) : decode (sampleAndEndOffer raw stall) = .ok (.addSample raw) :=
  decode_encode (i := .addSample raw) rfl

/-- Taking the sample leaves the end alone at the head. -/
theorem takeOffer_sampleAndEndOffer (raw stall : Bool) (rest : List Offer) :
    takeOffer (sampleAndEndOffer raw stall :: rest) = finOffer :: rest := rfl

/-! The beats of an emission (R192). -/

/-- An emission takes one beat a bit; the empty one still takes a beat. -/
theorem dbBeats_length (B : Bits) : (dbBeats B).length = max 1 B.length := by
  fun_induction dbBeats B with
  | case1 => rfl
  | case2 b => rfl
  | case3 b c t ih =>
    rw [List.length_cons, ih]
    simp only [List.length_cons]
    omega

/-- Beat `j` of an emission that is not empty: bit `j`, marked when it is the final one. -/
theorem dbBeats_getElem? {B : Bits} (hB : B ≠ []) (j : Nat) :
    (dbBeats B)[j]? = B[j]?.map fun b => { bit := b, last := decide (j + 1 = B.length), empty := false } := by
  fun_induction dbBeats B generalizing j with
  | case1 => exact absurd rfl hB
  | case2 b => cases j <;> rfl
  | case3 b c t ih =>
    cases j with
    | zero => simp
    | succ j => simp [ih (List.cons_ne_nil c t) j]

end Sys2Proof.Machine
end

section
/-! PROOFS. The statements of 60_exceptions.md. -/

namespace Sys2Proof.Proofs

open Sys2Proof Sys2Proof.Machine

/-- Settles O60: the one beat of the empty emission, and the beat of each bit of any other. -/
theorem emissionIsShownBitByBit : Obligations.EmissionIsShownBitByBit := by
  refine fun B => ⟨dbBeats_length B, fun j hj => ?_⟩
  by_cases hB : B = []
  case pos =>
    subst hB
    obtain rfl : j = 0 := Nat.lt_one_iff.mp hj
    exact ⟨_, rfl, by decide, by decide, fun h => absurd rfl h⟩
  case neg =>
    have hlen : (dbBeats B).length = B.length := by
      rw [dbBeats_length, max_eq_right (List.length_pos_iff.mpr hB)]
    rw [hlen] at hj ⊢
    have hbit : B[j]? = some B[j] := List.getElem?_eq_getElem hj
    refine ⟨_, by rw [dbBeats_getElem? hB, hbit, Option.map_some], ?_, ?_, fun _ => hbit⟩
    · exact decide_eq_true_iff
    · simp [hB]

/-- Settles O55: the sample is decoded, ADDSAMPLE takes it as from any accepting state, and the end goes back. -/
theorem sampleGoesBeforeTheEnd : Obligations.SampleGoesBeforeTheEnd := by
  intro s raw stall rest hacc hstage hsource
  have ⟨ha, hended, _⟩ := hacc
  change s.source = sampleAndEndOffer raw stall :: rest at hsource
  obtain ⟨t, hadd, hlast, -, hend, -, hsrc⟩ :=
    addSampleCompletesAndStoresTheLevel { s with source := finOffer :: rest } raw hacc
  refine ⟨advance t, ?_, hend.trans hended, hlast, hsrc⟩
  rw [step_of_stage_idle ha hstage, runOffered_of_decode_ok hsource (decode_sampleAndEndOffer raw stall),
    takeOffer_sampleAndEndOffer, hadd, settle]

end Sys2Proof.Proofs
end

section
/-! SUPPORT. Reset and hazards (70_reset_and_hazards.md): without the margin a run of exactly `L` samples is one count too
short for the edge that ends it, unless it is the first run after RESET and of level 0. -/

namespace Sys2Proof.Machine

/-- The record after a run of `L` samples of level `v` whose edge sample was out of tolerance (R106, R108). -/
def shortRunRecord (cfg : Cfg) (v : Bool) : SymSync := { resetSync with last := v, sampCount := cfg.L - 1 }

/-- The record after a first run of level 0, counted in full, and a run of level 1 whose edge sample counted it (R216). -/
def oneRunCountedRecord (cfg : Cfg) : SymSync :=
  { resetSync with last := true, sampCount := cfg.L - 1, preambCount := 1, buffer := [false] }

theorem runs_add_two (k n : Nat) (v : Bool) :
    runs (k + 2) n v = (List.replicate n v ++ List.replicate n (!v)) ++ runs k n v := by
  simp [runs]

/-- The bits counted after `k` runs of exactly `L` samples from level `v`, when nothing has locked: only the edge that begins
the second run counts one, if the first run is of level 0, and the edge that begins the third clears it (R216, R217). -/
def countedBits (v : Bool) (k : Nat) : Bits := if v = false ∧ k = 2 then [false] else []

section WithoutMargin

variable {cfg : Cfg} (ha : admitted cfg = true)
include ha

/-- The first run of level 0 begins without an edge and is counted in full (R216). -/
theorem leads_firstRun_low :
    Leads cfg (List.replicate cfg.L false) resetSync { resetSync with sampCount := cfg.L } [] [] ∧
      InPreamble cfg 0 false { resetSync with sampCount := cfg.L } := by
  have hheld := leads_held_unlocked cfg (st := resetSync) rfl rfl cfg.L
  rw [resetSync_sampCount, zero_add] at hheld
  exact ⟨hheld, rfl, rfl, rfl, rfl, rfl, lo_le_L ha, L_le_hi ha⟩

/-- Unless `K = 1`, the edge that ends the first run of level 0 counts it, and no more (R107). -/
theorem leads_twoRuns_low (hK : 2 ≤ cfg.K) :
    Leads cfg (List.replicate cfg.L false ++ List.replicate cfg.L true) resetSync (oneRunCountedRecord cfg) [] [] := by
  obtain ⟨hfirst, hs, ho, -, -, hlen, hlo, hhi⟩ := leads_firstRun_low ha
  have hroom := bufFull_eq_false_of_length_lt ha (by rw [hlen]; omega)
  have hcall (n : Nat) := callSample_uEdgeOk (n := n) (smp := true) hs (by simp) hlo hhi ho hroom (Nat.ne_of_lt hK)
  exact hfirst.append (leads_run_after_edge ha hcall rfl rfl rfl rfl)

/-- A run that begins with an edge after too short a count clears the preamble and ends one count short of `L`. -/
theorem leads_shortRun {v : Bool} {st : SymSync} (hs : st.state = .unlocked) (ho : st.ovf = false) (hv : st.last ≠ v)
    (hshort : st.sampCount < lo cfg) :
    Leads cfg (List.replicate cfg.L v) st (shortRunRecord cfg v) [] [.evDesync] := by
  have hcall (n : Nat) := callSample_uEdgeBad (n := n) hs hv.symm (.inl hshort)
  have hrun := leads_run_after_edge ha hcall hs ho rfl rfl
  rw [hs, ho] at hrun
  exact hrun

/-- Without the margin a run counted one short of `L` is below tolerance (R217). -/
theorem L_sub_one_lt_lo (hmargin : cfg.L * cfg.tolNum < cfg.tolDen) : cfg.L - 1 < lo cfg := by
  obtain ⟨hL, htol, -, -⟩ := admitted_iff.mp ha
  rw [← not_le, lo_le_iff (tolDen_pos ha), not_le, Nat.mul_sub, Nat.mul_sub, Nat.mul_comm cfg.tolDen cfg.L, Nat.mul_one]
  have hden : cfg.tolDen ≤ cfg.L * cfg.tolDen := Nat.le_mul_of_pos_left _ hL
  omega

variable (hmargin : cfg.L * cfg.tolNum < cfg.tolDen)
include hmargin

/-- Each run after too short a count ends with too short a count itself, so none of them is ever counted. -/
theorem leads_shortRuns (k : Nat) {v : Bool} {st : SymSync} (hs : st.state = .unlocked) (ho : st.ovf = false)
    (hv : st.last ≠ v) (hshort : st.sampCount < lo cfg) :
    Leads cfg (runs (k + 1) cfg.L v) st (shortRunRecord cfg (not^[k] v)) [] (List.replicate (k + 1) .evDesync) := by
  induction k generalizing v st with
  | zero => simpa [runs] using leads_shortRun ha hs ho hv hshort
  | succ k ih =>
    exact (leads_shortRun ha hs ho hv hshort).append
      (ih rfl rfl (Bool.not_ne_self v).symm (L_sub_one_lt_lo ha hmargin))

theorem exists_leads_runs_withoutMargin {v : Bool} (hv : v = true ∨ 2 ≤ cfg.K) (k : Nat) :
    ∃ st' cs, Leads cfg (runs k cfg.L v) resetSync st' [] cs ∧ Cond.evLock ∉ cs ∧
      st'.state = .unlocked ∧ st'.preambCount = (countedBits v k).length ∧ st'.buffer = countedBits v k := by
  have hlock (n : Nat) : Cond.evLock ∉ List.replicate n Cond.evDesync := by simp
  match v, k with
  | v, 0 => exact ⟨_, _, Leads.nil cfg resetSync, List.not_mem_nil, by simp [countedBits]⟩
  | true, k + 1 =>
    have hruns := leads_shortRuns ha hmargin k (v := true) (st := resetSync) rfl rfl (by simp) (one_le_lo ha)
    exact ⟨_, _, hruns, hlock _, rfl, rfl, rfl⟩
  | false, 1 =>
    obtain ⟨hfirst, -⟩ := leads_firstRun_low ha
    exact ⟨_, _, by simpa [runs] using hfirst, List.not_mem_nil, rfl, rfl, rfl⟩
  | false, 2 =>
    have hK : 2 ≤ cfg.K := hv.resolve_left Bool.false_ne_true
    exact ⟨_, _, by simpa [runs] using leads_twoRuns_low ha hK, List.not_mem_nil, rfl, rfl, rfl⟩
  | false, k + 3 =>
    have hK : 2 ≤ cfg.K := hv.resolve_left Bool.false_ne_true
    have hrest := leads_shortRuns ha hmargin k (v := false) (st := oneRunCountedRecord cfg) rfl rfl
      Bool.false_ne_true.symm (L_sub_one_lt_lo ha hmargin)
    rw [runs_add_two (k + 1)]
    exact ⟨_, _, (leads_twoRuns_low ha hK).append hrest, hlock _, rfl, rfl, rfl⟩

end WithoutMargin

end Sys2Proof.Machine
end

section
/-! PROOFS. The statements of 70_reset_and_hazards.md. -/

namespace Sys2Proof.Proofs

open Sys2Proof Sys2Proof.Machine

/-- Settles O46: every edge is judged by a count below LO, but for the one that ends a first run of level 0, counted in full;
that one counts the run, and with `K = 1` it locks. -/
theorem perfectSignalNeverLocksWithoutMargin : Obligations.PerfectSignalNeverLocksWithoutMargin := by
  intro s k v hacc hst hmargin counted
  have ⟨ha, _, _⟩ := hacc
  refine ⟨fun hv => ?_, ?_⟩
  · obtain ⟨st, cs, hruns, hcs, hs, hcount, hbuf⟩ := exists_leads_runs_withoutMargin ha hmargin hv k
    rw [← hst] at hruns
    obtain ⟨tr, htr, rfl, hes, rfl⟩ := hruns.exists_feed hacc
    exact ⟨tr, htr, hs, hcount, hbuf, hes, hcs⟩
  · rintro ⟨rfl, hK⟩
    obtain ⟨hfirst, hpre⟩ := leads_firstRun_low ha
    have hlock := hfirst.append (leads_lockingEdge ha (by rwa [hK]))
    rw [← hst] at hlock
    obtain ⟨tr, htr, hfinal, hes, hcs⟩ := hlock.exists_feed hacc
    exact ⟨tr, htr, by rw [hfinal], hes, hcs⟩

end Sys2Proof.Proofs
end

section
/-! SUPPORT. The encodings (30_encoding.md), the pattern table's view of a 32-bit word: SYNC's row is tried first, every
other word is the codeword row of its class (R84). -/

namespace Sys2Proof.Machine

/-- A table word stands for the operation its offer decodes to. -/
theorem decodeTableWord_of_decode {nbits w : Nat} {i : Instr} (h : decode (tableOffer nbits w) = .ok i) :
    decodeTableWord nbits w = some i := by
  rw [decodeTableWord, h]

theorem tableOffer_syncWord : tableOffer 32 syncWord.toNat = encode .sync := by
  have hbits : bitsOf 32 syncWord.toNat = syncBits := bitsOfWord_wordOf rfl
  rw [tableOffer, if_pos rfl, if_pos rfl, hbits, encode]

theorem tableOffer_of_ne_syncWord {w : Word32} (hsync : w ≠ syncWord) :
    tableOffer 32 w.toNat = offerOf .codeword 0 (bitsOfWord w) := by
  rw [tableOffer, if_pos rfl, if_neg (mt BitVec.eq_of_toNat_eq hsync), bitsOfWord]

theorem decodeTableWord_syncWord : decodeTableWord 32 syncWord.toNat = some .sync :=
  decodeTableWord_of_decode (tableOffer_syncWord ▸ decode_encode rfl)

/-- The encoding of a value, as a table word, is the row of that value, where it is neither the sync word, which the table
reads as SYNC (R76, R84), nor the idle pattern as the encoding of an Address (R80). -/
theorem decodeTableWord_of_enc {x : Codeword} {w : Nat} (hw : (enc x).toNat = w) (hsync : enc x ≠ syncWord)
    (hx : x ≠ .address 0x3D44E 0 0x0CB 1) : decodeTableWord 32 w = some (instrOfCodeword x) := by
  subst hw
  apply decodeTableWord_of_decode
  rw [tableOffer_of_ne_syncWord hsync, ← encode_instrOfCodeword]
  exact decode_encode_instrOfCodeword ((properCodeword_iff x).mpr (classify_enc hx))

end Sys2Proof.Machine
end

section
/-! PROOFS. The words written out in 30_encoding.md. -/

namespace Sys2Proof.Proofs

open Sys2Proof Sys2Proof.Machine

/-- Settles O3: the first word is the sync word, the next three are the encodings of their values and not the sync word, and
the sample is the encoding of its operation. -/
theorem wordsOfTheSpecDecode : Obligations.WordsOfTheSpecDecode := by
  have hsync : syncWord.toNat = 0x7CD215D8 := by decide
  have hidle : (enc .idle).toNat = 0x7A89C197 := by decide
  have haddress : (enc (.address 0x1234 3 0 0)).toNat = 0x02469800 := by decide
  have hmessage : (enc (.message 0x132C0 0 0)).toNat = 0x89960000 := by decide
  exact ⟨hsync ▸ decodeTableWord_syncWord, decodeTableWord_of_enc hidle (by decide) (by decide),
    decodeTableWord_of_enc haddress (by decide) (by decide), decodeTableWord_of_enc hmessage (by decide) (by decide),
    decode_encode (i := .addSample true) rfl⟩

end Sys2Proof.Proofs
end
